-- ==== Sys2Proof/Word.lean ====
section
/-! DEFINITION. The word types of the SM2/SM3 CORE (00_scope.md rule R8): every value is unsigned. -/

namespace Sys2Proof

/-- `u8` of R8. -/
abbrev Byte := BitVec 8

/-- `u32` of R8: the host's transfer word, the command word, an SM3 word. -/
abbrev Word := BitVec 32

/-- `u256` of R8: a field element, a coordinate or a scalar. -/
abbrev U256 := BitVec 256

/-- A 4-bit operand field of a command word (R90). -/
abbrev Nibble := BitVec 4

end Sys2Proof
end

