-- ==== Sys2Proof/Syntax.lean ====
section
/-! DEFINITION. The command set (30_encoding.md rule R94): one constructor per row of spec/opcode_table.json. An
operand is the 4-bit field of the command word that names it (R90); which values are legal is WellFormed.lean's. -/

namespace Sys2Proof

/-- A command, with its operands in the order RD, RA, RB, unused fields left out (R99). -/
inductive Instr where
  | nop
  | fldc (d c : Nibble)
  | fmov (d a : Nibble)
  | madd (d a b : Nibble)
  | msub (d a b : Nibble)
  | mmul (d a b : Nibble)
  | minv (d a : Nibble)
  | pldg (d : Nibble)
  | psetinf (d : Nibble)
  | pmov (d a : Nibble)
  | pset (d a b : Nibble)
  | fgetx (d a : Nibble)
  | fgety (d a : Nibble)
  | pneg (d a : Nibble)
  | padd (d a b : Nibble)
  | pdbl (d a : Nibble)
  | pmul (d a b : Nibble)
  | pchk (a : Nibble)
  | pstore (a : Nibble)
  | pload (d : Nibble)
  | hinit
  | hcomp
  | hash
  | kdf
  deriving DecidableEq, Repr

end Sys2Proof
end

