-- ==== Sys2Proof/WellFormed.lean ====
section
/-! DEFINITION. When a command is well formed: every operand field holds a legal value of its class
(30_encoding.md rules R91, R93). -/

namespace Sys2Proof

/-- Class `F`: f0..f7, field values 0..7 (R91). -/
def isF (x : Nibble) : Bool := decide (x.toNat < 8)

/-- Class `P`: p0..p3, field values 0..3 (R91). -/
def isP (x : Nibble) : Bool := decide (x.toNat < 4)

/-- Class `c`: the constant selector of FLDC, 0..5 (R91). -/
def isC (x : Nibble) : Bool := decide (x.toNat < 6)

/-- Every operand is legal for its class in the table of R94. -/
def Instr.wf : Instr → Bool
  | .nop => true
  | .fldc d c => isF d && isC c
  | .fmov d a => isF d && isF a
  | .madd d a b => isF d && isF a && isF b
  | .msub d a b => isF d && isF a && isF b
  | .mmul d a b => isF d && isF a && isF b
  | .minv d a => isF d && isF a
  | .pldg d => isP d
  | .psetinf d => isP d
  | .pmov d a => isP d && isP a
  | .pset d a b => isP d && isF a && isF b
  | .fgetx d a => isF d && isP a
  | .fgety d a => isF d && isP a
  | .pneg d a => isP d && isP a
  | .padd d a b => isP d && isP a && isP b
  | .pdbl d a => isP d && isP a
  | .pmul d a b => isP d && isF a && isP b
  | .pchk a => isP a
  | .pstore a => isP a
  | .pload d => isP d
  | .hinit => true
  | .hcomp => true
  | .hash => true
  | .kdf => true

end Sys2Proof
end

