-- ==== Sys2Proof/Decode.lean ====
section
/-! DEFINITION. From command words to commands and back (30_encoding.md rules R90 to R97). The decoder is total on all
words; what it refuses it refuses by name, and the engine completes such a word with CmdError(ILLEGAL) (R96). -/

namespace Sys2Proof

/-! ### The fields of a word (R90) -/

/-- OP, bits 7:0. -/
def opField (c : Word) : BitVec 8 := c.extractLsb' 0 8

/-- RD, bits 11:8. -/
def rdField (c : Word) : Nibble := c.extractLsb' 8 4

/-- RA, bits 15:12. -/
def raField (c : Word) : Nibble := c.extractLsb' 12 4

/-- RB, bits 19:16. -/
def rbField (c : Word) : Nibble := c.extractLsb' 16 4

/-- RSV, bits 31:20. -/
def rsvField (c : Word) : BitVec 12 := c.extractLsb' 20 12

/-- The word with RSV = 0 (R95). -/
def packWord (op : BitVec 8) (rd ra rb : Nibble) : Word := 0#12 ++ rb ++ ra ++ rd ++ op

/-! ### The opcode map (R91, R94) -/

/-- An operand class of R91. -/
inductive OpClass where
  | f
  | p
  | c
  | unused
  deriving DecidableEq, Repr

/-- The legal field values of a class (R91). -/
def OpClass.admits : OpClass → Nibble → Bool
  | .f, x => decide (x.toNat < 8)
  | .p, x => decide (x.toNat < 4)
  | .c, x => decide (x.toNat < 6)
  | .unused, x => decide (x = 0#4)

/-- One row of R94: the opcode, the classes of RD, RA, RB, and the command made of the three fields. -/
structure OpRow where
  op : BitVec 8
  rd : OpClass
  ra : OpClass
  rb : OpClass
  make : Nibble → Nibble → Nibble → Instr

/-- The opcode map of R94, row by row. -/
def opTable : List OpRow := [
  ⟨0x00, .unused, .unused, .unused, fun _ _ _ => .nop⟩,
  ⟨0x01, .f, .c, .unused, fun d a _ => .fldc d a⟩,
  ⟨0x02, .f, .f, .unused, fun d a _ => .fmov d a⟩,
  ⟨0x10, .f, .f, .f, fun d a b => .madd d a b⟩,
  ⟨0x11, .f, .f, .f, fun d a b => .msub d a b⟩,
  ⟨0x12, .f, .f, .f, fun d a b => .mmul d a b⟩,
  ⟨0x13, .f, .f, .unused, fun d a _ => .minv d a⟩,
  ⟨0x20, .p, .unused, .unused, fun d _ _ => .pldg d⟩,
  ⟨0x21, .p, .unused, .unused, fun d _ _ => .psetinf d⟩,
  ⟨0x22, .p, .p, .unused, fun d a _ => .pmov d a⟩,
  ⟨0x23, .p, .f, .f, fun d a b => .pset d a b⟩,
  ⟨0x24, .f, .p, .unused, fun d a _ => .fgetx d a⟩,
  ⟨0x25, .f, .p, .unused, fun d a _ => .fgety d a⟩,
  ⟨0x26, .p, .p, .unused, fun d a _ => .pneg d a⟩,
  ⟨0x27, .p, .p, .p, fun d a b => .padd d a b⟩,
  ⟨0x28, .p, .p, .unused, fun d a _ => .pdbl d a⟩,
  ⟨0x29, .p, .f, .p, fun d a b => .pmul d a b⟩,
  ⟨0x2A, .unused, .p, .unused, fun _ a _ => .pchk a⟩,
  ⟨0x2B, .unused, .p, .unused, fun _ a _ => .pstore a⟩,
  ⟨0x2C, .p, .unused, .unused, fun d _ _ => .pload d⟩,
  ⟨0x30, .unused, .unused, .unused, fun _ _ _ => .hinit⟩,
  ⟨0x31, .unused, .unused, .unused, fun _ _ _ => .hcomp⟩,
  ⟨0x32, .unused, .unused, .unused, fun _ _ _ => .hash⟩,
  ⟨0x40, .unused, .unused, .unused, fun _ _ _ => .kdf⟩]

/-! ### The decoder -/

/-- Why a word is not legal (R96). -/
inductive DecodeError where
  | unknownOpcode
  | reservedBits
  | badRD
  | badRA
  | badRB
  deriving DecidableEq, Repr

/-- The command a word stands for, exactly when the word is legal (R93). -/
def decode (c : Word) : Except DecodeError Instr :=
  match opTable.find? (fun r => r.op == opField c) with
  | none => .error .unknownOpcode
  | some r =>
    if rsvField c ≠ 0#12 then .error .reservedBits
    else if r.rd.admits (rdField c) = false then .error .badRD
    else if r.ra.admits (raField c) = false then .error .badRA
    else if r.rb.admits (rbField c) = false then .error .badRB
    else .ok (r.make (rdField c) (raField c) (rbField c))

/-- The command in a row of spec/opcode_table.json: a word of `nbits` bits, the bits above zero, given to the decoder.
A command is one 32-bit word (R90), which the host writes to CMD as a number: no byte order enters. -/
def decodeTableWord (nbits w : Nat) : Option Instr :=
  match decode (BitVec.ofNat 32 (w % 2 ^ nbits)) with
  | .ok i => some i
  | .error _ => none

/-! ### The encoder -/

/-- The word of a command (R94, R95). -/
def encode : Instr → Word
  | .nop => packWord 0x00 0 0 0
  | .fldc d c => packWord 0x01 d c 0
  | .fmov d a => packWord 0x02 d a 0
  | .madd d a b => packWord 0x10 d a b
  | .msub d a b => packWord 0x11 d a b
  | .mmul d a b => packWord 0x12 d a b
  | .minv d a => packWord 0x13 d a 0
  | .pldg d => packWord 0x20 d 0 0
  | .psetinf d => packWord 0x21 d 0 0
  | .pmov d a => packWord 0x22 d a 0
  | .pset d a b => packWord 0x23 d a b
  | .fgetx d a => packWord 0x24 d a 0
  | .fgety d a => packWord 0x25 d a 0
  | .pneg d a => packWord 0x26 d a 0
  | .padd d a b => packWord 0x27 d a b
  | .pdbl d a => packWord 0x28 d a 0
  | .pmul d a b => packWord 0x29 d a b
  | .pchk a => packWord 0x2A 0 a 0
  | .pstore a => packWord 0x2B 0 a 0
  | .pload d => packWord 0x2C d 0 0
  | .hinit => packWord 0x30 0 0 0
  | .hcomp => packWord 0x31 0 0 0
  | .hash => packWord 0x32 0 0 0
  | .kdf => packWord 0x40 0 0 0

end Sys2Proof
end

