-- ==== Sys2Proof/Machine/Bytes.lean ====
section
/-! DEFINITION. Byte strings and their big-endian reading (00_scope.md rule R10), and the 32-bit words of a 256-bit
value (rule R9, 10_state.md rule R35). -/

namespace Sys2Proof.Machine

/-- `be_N(v)` of R10: byte 0 holds the most significant bits. -/
def beBytes (n v : Nat) : List Byte := (List.range n).map fun i => BitVec.ofNat 8 (v >>> (8 * (n - 1 - i)))

/-- `int_be(s)` of R10. -/
def intBe (s : List Byte) : Nat := s.foldl (fun acc x => 256 * acc + x.toNat) 0

/-- Word j of a 256-bit value, its bits `255-32j : 224-32j` (R9). -/
def getWord (v : U256) (j : Fin 8) : Word := v.extractLsb' (224 - 32 * j.val) 32

/-- The ones of the least significant word of a 256-bit value. -/
def lowWordMask : U256 := 0xFFFFFFFF

/-- The value with only word j replaced (R35: a host write to one word changes only those 32 bits). -/
def setWord (v : U256) (j : Fin 8) (w : Word) : U256 :=
  (v &&& ~~~(lowWordMask <<< (224 - 32 * j.val))) ||| (w.setWidth 256 <<< (224 - 32 * j.val))

end Sys2Proof.Machine
end

