-- ==== Sys2Proof/Config.lean ====
section
/-! DEFINITION. What the spec leaves to the implementation (00_scope.md rule R7) and the free values: constants
without a body, of which no proof can know a value (93_implementation_defined.md U1 to U4). -/

namespace Sys2Proof.Config

/-- The byte a DBUF address holds in draw `k` of unspecified bytes: its contents after a hard reset (R44, R243, U2)
and the bytes an aborted command was due to write (R242, U3). Arguments: the draw's number and the DBUF offset.
Free value; assumption log 3. -/
opaque freeByte : Nat → Nat → Byte

/-- The word an unspecified host read returns in draw `k` (R70, R216, U1; R240, U4). Free value; assumption log 3. -/
opaque freeWord : Nat → Word

/-- The default of the parameter `DBUF_SIZE` (R7). Every statement over states holds for every size a state carries;
assumption log 6. -/
def dbufSizeDefault : Nat := 4096

/-- The values R7 admits for `DBUF_SIZE`. -/
def dbufSizeLegal (n : Nat) : Bool := n % 4 == 0 && decide (64 ≤ n) && decide (n ≤ 0xF000)

end Sys2Proof.Config
end

