-- ==== Sys2Proof/Machine/Rom.lean ====
section
/-! DEFINITION. The read-only constants: the curve-constant ROM (10_state.md rule R40, 41_curve.md rule R130), ID and
VERSION (10_state.md rules R22, R23), and the SM3 initial value (42_sm3.md rule R170). -/

namespace Sys2Proof.Machine.Rom

/-- The prime p of R130. -/
def p : Nat := 0xFFFFFFFEFFFFFFFFFFFFFFFFFFFFFFFFFFFFFFFF00000000FFFFFFFFFFFFFFFF

/-- The coefficient a of R130 (= p - 3). -/
def a : Nat := 0xFFFFFFFEFFFFFFFFFFFFFFFFFFFFFFFFFFFFFFFF00000000FFFFFFFFFFFFFFFC

/-- The coefficient b of R130. -/
def b : Nat := 0x28E9FA9E9D9F5E344D5A9E4BCF6509A7F39789F515AB8F92DDBCBD414D940E93

/-- The group order n of R130. -/
def n : Nat := 0xFFFFFFFEFFFFFFFFFFFFFFFFFFFFFFFF7203DF6B21C6052B53BBF40939D54123

/-- The x coordinate of G in R130. -/
def gx : Nat := 0x32C4AE2C1F1981195F9904466A39C9948FE30BBFF2660BE1715A4589334C74C7

/-- The y coordinate of G in R130. -/
def gy : Nat := 0xBC3736A2F4F6779C59BDCEE36B692153D0A9877CC62A474002DF32E52139F0A0

/-- The ID register, "SM23" in ASCII from bit 31 down (R22). -/
def id : Word := 0x534D3233

/-- The VERSION register (R23). -/
def version : Word := 0x00000007

/-- The SM3 initial value in the order V0..V7 (R170). -/
def sm3Iv : Vector Word 8 :=
  #v[0x7380166F, 0x4914B2B9, 0x172442D7, 0xDA8A0600, 0xA96F30BC, 0x163138AA, 0xE38DEE4D, 0xB0FB0E4E]

end Sys2Proof.Machine.Rom
end

