-- ==== Sys2Proof/Machine/State.lean ====
section
/-! DEFINITION. The state of the SM2/SM3 CORE (10_state.md rules R20 to R44), what can stop it, and its value right
after a hard reset (rule R44). -/

namespace Sys2Proof.Machine

/-- Reasons for which the machine stops. The spec gives none: the core takes no traps (60_exceptions.md rule R221),
every error is a STATUS value, and every step has a next state. -/
inductive Fault where
  deriving DecidableEq, Repr

/-- Reasons for which a command has no meaning in this model. -/
inductive Refusal where
  /-- Raised by `exec` for a command that has no meaning yet, by its mnemonic. Safe: the model stops. No arm raises it. -/
  | notModelled (mnemonic : String)
  deriving DecidableEq, Repr

/-- The error of a failed command (60_exceptions.md rule R212). The reserved codes 5..15 have no constructor: no command
produces them. -/
inductive CmdError where
  | illegal
  | range
  | kdfOvf
  | infEncode
  deriving DecidableEq, Repr

/-- The stored fields of STATUS (10_state.md rule R26). BUSY is the engine's state (rule R41). `errcode = none` is
code 0, NONE. -/
structure Status where
  done : Bool
  err : Bool
  ovr : Bool
  berr : Bool
  t : Bool
  zf : Bool
  errcode : Option CmdError
  deriving DecidableEq, Repr

/-- A point register: the tag `inf[i]` and the stored coordinates (10_state.md rule R36). -/
structure PointReg where
  inf : Bool
  x : U256
  y : U256
  deriving DecidableEq, Repr

/-- The command engine (10_state.md rule R41). -/
inductive Engine where
  | idle
  | busy (c : Word)
  deriving DecidableEq, Repr

/-- The data buffer DBUF (20_memory.md rule R61): its size, the bytes written since the hard reset, addresses strictly
rising, and the draw that gave the others their unspecified power-on value (assumption log 4). -/
structure Memory where
  size : Nat
  cells : List Host.Cell
  draw : Nat
  deriving DecidableEq, Repr

/-- The width of a host transfer in bits. 16 is never legal (20_memory.md rule R69). -/
inductive Width where
  | w8
  | w16
  | w32
  deriving DecidableEq, Repr

/-- One atomic step of the world (20_memory.md rule R76): a host transfer at a window offset (rule R70), the engine's
turn (60_exceptions.md rule R211), or an edge of the hard-reset input (70_reset_and_hazards.md rule R240). -/
inductive Event where
  | hostRead (off : BitVec 16) (w : Width)
  | hostWrite (off : BitVec 16) (w : Width) (v : Word)
  | engineTurn
  | resetAsserted
  | resetReleased
  deriving DecidableEq, Repr

/-- The machine: the architectural state of rule R20, then the level of the reset input, then the model's own fields. -/
structure State where
  /-- CTRL.IE (R24). -/
  ie : Bool
  /-- STATUS without BUSY (R26). -/
  status : Status
  /-- CMD, the last accepted command word (R30). -/
  cmd : Word
  /-- SRC (R31). -/
  src : Word
  /-- DST (R31). -/
  dst : Word
  /-- LEN (R31). -/
  len : Word
  /-- KLEN_LO (R32). -/
  klenLo : Word
  /-- KLEN_HI (R32). -/
  klenHi : Word
  /-- CT (R33). -/
  ct : Word
  /-- F0..F7 (R35). -/
  f : Vector U256 8
  /-- P0..P3 with their PINF bits (R34, R36). -/
  p : Vector PointReg 4
  /-- V0..V7 (R38). -/
  v : Vector Word 8
  /-- B0..B15 (R39). -/
  b : Vector Word 16
  /-- DBUF (20_memory.md R61). -/
  dbuf : Memory
  /-- The engine (R41). -/
  engine : Engine
  /-- The hard-reset input is asserted (70_reset_and_hazards.md R240). -/
  inReset : Bool
  /-- Model's own: what the last host read returned to the host (assumption log 2). -/
  rdata : Word
  /-- Model's own: the events still to come, the next one first (assumption log 1). -/
  events : List Event
  /-- Model's own: the number of the next draw of free values (assumption log 3). -/
  draws : Nat
  deriving DecidableEq, Repr

/-- STATUS with every stored field 0 (R44). -/
def Status.cleared : Status :=
  { done := false, err := false, ovr := false, berr := false, t := false, zf := false, errcode := none }

/-- A point register at reset, `(1, 0, 0)` (R36, R44). -/
def PointReg.reset : PointReg := { inf := true, x := 0, y := 0 }

/-- The machine right after a hard reset (R44): DBUF holds unspecified bytes, the engine is Idle, nothing is scheduled.
The model's own fields stand at values of its own (assumption log 1, 2, 3, 6). -/
def State.reset : State where
  ie := false
  status := Status.cleared
  cmd := 0
  src := 0
  dst := 0
  len := 0
  klenLo := 0
  klenHi := 0
  ct := 0
  f := Vector.replicate 8 0
  p := Vector.replicate 4 PointReg.reset
  v := Rom.sm3Iv
  b := Vector.replicate 16 0
  dbuf := { size := Config.dbufSizeDefault, cells := [], draw := 0 }
  engine := .idle
  inReset := false
  rdata := 0
  events := []
  draws := 1

end Sys2Proof.Machine
end

