-- ==== Sys2Proof/Machine/Ops.lean ====
section
/-! DEFINITION. The named operations over DBUF and the registers, the end of a command (60_exceptions.md rules R210 to
R214) and the two resets (70_reset_and_hazards.md rules R240 to R243). -/

namespace Sys2Proof.Machine

/-! ### DBUF (20_memory.md R61, 00_scope.md R13) -/

/-- The written byte at an address, none where nothing has been written since the hard reset. -/
def Memory.lookup (a : Nat) : List Host.Cell → Option Byte
  | [] => none
  | (k, x) :: rest => if k = a then some x else Memory.lookup a rest

/-- The cells with the byte at `a` replaced or added in its place. -/
def Memory.insert (a : Nat) (x : Byte) : List Host.Cell → List Host.Cell
  | [] => [(a, x)]
  | (k, y) :: rest =>
    if a < k then (a, x) :: (k, y) :: rest
    else if a = k then (a, x) :: rest
    else (k, y) :: Memory.insert a x rest

/-- `DBUF[a]`: what was last written there, else the free byte of the power-on draw (R243; assumption log 4). -/
def Memory.read (m : Memory) (a : Nat) : Byte := (Memory.lookup a m.cells).getD (Config.freeByte m.draw a)

/-- `DBUF[a] <- x`. -/
def Memory.write (m : Memory) (a : Nat) (x : Byte) : Memory := { m with cells := Memory.insert a x m.cells }

/-- The bytes `DBUF[o .. o+n)`. -/
def Memory.readBytes (m : Memory) (o n : Nat) : List Byte := (List.range n).map fun i => m.read (o + i)

/-- `DBUF[o+i] <- s[i]` for every i below the length of s. -/
def Memory.writeBytes (m : Memory) (o : Nat) : List Byte → Memory
  | [] => m
  | x :: rest => Memory.writeBytes (m.write o x) (o + 1) rest

/-- The range check of 20_memory.md R66, on unbounded integers. -/
def Memory.inRange (m : Memory) (o n : Nat) : Bool := decide (o + n ≤ m.size)

/-- The cells stand at strictly rising addresses, all at least `lo` and below `size`. -/
def Memory.rising (size : Nat) : Nat → List Host.Cell → Bool
  | _, [] => true
  | lo, (k, _) :: rest => decide (lo ≤ k) && decide (k < size) && Memory.rising size (k + 1) rest

/-- The one form DBUF is held in: a size R7 admits and the written bytes at strictly rising addresses inside it. An
unlisted address has no written value, so no entry repeats it. -/
def Memory.wf (m : Memory) : Bool := Config.dbufSizeLegal m.size && Memory.rising m.size 0 m.cells

/-- `MemRead(off, n)` (00_scope.md R13). -/
def State.memRead (s : State) (off n : Nat) : List Byte := s.dbuf.readBytes off n

/-- `MemWrite(off, len(x), x)` (00_scope.md R13). -/
def State.memWrite (s : State) (off : Nat) (x : List Byte) : State := { s with dbuf := s.dbuf.writeBytes off x }

/-! ### The life of a command (60_exceptions.md) -/

/-- The engine is Busy (10_state.md R41). -/
def Engine.isBusy : Engine → Bool
  | .idle => false
  | .busy _ => true

/-- Acceptance of a command word (R210). -/
def State.accept (c : Word) (s : State) : State :=
  { s with cmd := c, engine := .busy c, status := { s.status with done := false } }

/-- Completion of a successful command (R211): ERR and ERRCODE stay as they were. -/
def State.complete (s : State) : State :=
  { s with engine := .idle, status := { s.status with done := true } }

/-- `raise CmdError(code)`: completion of a failed command (R211, R214). It is all a failed command writes, and all the
core saves about an error (R221). -/
def State.raiseCmdError (code : CmdError) (s : State) : State :=
  { s with engine := .idle, status := { s.status with done := true, err := true, errcode := some code } }

/-- The host's acknowledgement by a write of `v` to STATUS (10_state.md R27), the return from an error (R222). -/
def State.acknowledge (v : Word) (s : State) : State :=
  { s with status :=
    { s.status with
      done := s.status.done && !v.getLsbD 1
      err := s.status.err && !v.getLsbD 2
      errcode := if v.getLsbD 2 then none else s.status.errcode
      ovr := s.status.ovr && !v.getLsbD 3
      berr := s.status.berr && !v.getLsbD 4 } }

/-- A command: when its fields are not legal it raises ILLEGAL before every other check (30_encoding.md R96, R213);
otherwise its body gives the state with its results or the error it raises. It is done to the state it finds, the
operands as they stood at acceptance (20_memory.md R67), and completes in the same step (R211). -/
def runCommand (legal : Bool) (body : Except CmdError State) (s : State) : Host.Outcome State Fault Refusal :=
  if legal then
    match body with
    | .ok t => .next t.complete
    | .error code => .next (s.raiseCmdError code)
  else .next (s.raiseCmdError .illegal)

/-! ### Reset (70_reset_and_hazards.md) -/

/-- The output length of the KDF in bits, `klen`, KLEN_HI above KLEN_LO (10_state.md R32). -/
def State.klen (s : State) : Nat := (s.klenHi ++ s.klenLo).toNat

/-- The DBUF range a command is due to write, where every range check of 20_memory.md R66 for it would pass
(R242; assumption log 7). -/
def dueRangeOf (s : State) : Instr → Option (Nat × Nat)
  | .pstore _ => if s.dbuf.inRange s.dst.toNat 64 then some (s.dst.toNat, 64) else none
  | .hash =>
    if s.dbuf.inRange s.src.toNat s.len.toNat && s.dbuf.inRange s.dst.toNat 32 then some (s.dst.toNat, 32) else none
  | .kdf =>
    if s.dbuf.inRange s.src.toNat s.len.toNat && s.dbuf.inRange s.dst.toNat ((s.klen + 7) / 8)
    then some (s.dst.toNat, (s.klen + 7) / 8) else none
  | .nop | .fldc _ _ | .fmov _ _ | .madd _ _ _ | .msub _ _ _ | .mmul _ _ _ | .minv _ _ => none
  | .pldg _ | .psetinf _ | .pmov _ _ | .pset _ _ _ | .fgetx _ _ | .fgety _ _ | .pneg _ _ => none
  | .padd _ _ _ | .pdbl _ _ | .pmul _ _ _ | .pchk _ | .pload _ | .hinit | .hcomp => none

/-- The range the running command is due to write; none when the engine is Idle or the word is not legal. -/
def State.dueRange (s : State) : Option (Nat × Nat) :=
  match s.engine with
  | .idle => none
  | .busy c =>
    match decode c with
    | .ok i => dueRangeOf s i
    | .error _ => none

/-- DBUF after an abort: every byte of the due range holds a free byte of draw `k`, every other byte its value (R242). -/
def Memory.scramble (m : Memory) (k : Nat) : Option (Nat × Nat) → Memory
  | none => m
  | some (o, n) => m.writeBytes o ((List.range n).map fun i => Config.freeByte k (o + i))

/-- Every register at its reset value (10_state.md R44); DBUF, the reset input and the model's own fields stay. -/
def State.resetRegisters (s : State) : State :=
  { State.reset with
    dbuf := s.dbuf, inReset := s.inReset, rdata := s.rdata, events := s.events, draws := s.draws }

/-- Soft reset (R241, R242): the registers are reset, the running command is abandoned, DBUF is kept but for the bytes
that command was due to write. -/
def State.softReset (s : State) : State :=
  { s.resetRegisters with dbuf := s.dbuf.scramble s.draws s.dueRange, draws := s.draws + 1 }

/-- The release of the hard-reset input (R240): every register at its reset value, DBUF unspecified bytes. -/
def State.hardReset (s : State) : State :=
  { s.resetRegisters with
    dbuf := { size := s.dbuf.size, cells := [], draw := s.draws }, inReset := false, draws := s.draws + 1 }

/-! ### The next command, placed from outside -/

/-- The state in which the word `c` has just been accepted (R210), no reset is asserted and the engine has the next turn
(assumption log 10). -/
def State.withAccepted (c : Word) (s : State) : State :=
  { s.accept c with inReset := false, events := .engineTurn :: s.events }

end Sys2Proof.Machine
end

