-- ==== Sys2Proof/Machine/Flags.lean ====
section
/-! DEFINITION. The status and control words as the host reads them, the two condition flags, and the interrupt level
(10_state.md rules R24 to R29, R34; 60_exceptions.md rules R212, R218). -/

namespace Sys2Proof.Machine

/-- The code of an error in STATUS.ERRCODE (60_exceptions.md R212); 0 is NONE. -/
def CmdError.code : CmdError → BitVec 4
  | .illegal => 1
  | .range => 2
  | .kdfOvf => 3
  | .infEncode => 4

/-- ERRCODE as a 4-bit field. -/
def errcodeField : Option CmdError → BitVec 4
  | none => 0
  | some e => e.code

/-- BUSY (10_state.md R26, R41). -/
def State.busyBit (s : State) : Bool := s.engine.isBusy

/-- STATUS as a 32-bit word (10_state.md R26): bits 7 and 31:12 read 0. -/
def State.statusWord (s : State) : Word :=
  0#20 ++ errcodeField s.status.errcode ++ 0#1 ++ BitVec.ofBool s.status.zf ++ BitVec.ofBool s.status.t
    ++ BitVec.ofBool s.status.berr ++ BitVec.ofBool s.status.ovr ++ BitVec.ofBool s.status.err
    ++ BitVec.ofBool s.status.done ++ BitVec.ofBool s.busyBit

/-- CTRL as a 32-bit word (10_state.md R24): SRST and bits 31:2 read 0. -/
def State.ctrlWord (s : State) : Word := 0#31 ++ BitVec.ofBool s.ie

/-- PINF as a 32-bit word (10_state.md R34): bit i is the tag of P[i], bits 31:4 read 0. -/
def State.pinfWord (s : State) : Word :=
  0#28 ++ BitVec.ofBool s.p[3].inf ++ BitVec.ofBool s.p[2].inf ++ BitVec.ofBool s.p[1].inf ++ BitVec.ofBool s.p[0].inf

/-- A host write of PINF: the four tags take the written bits 3:0, the coordinates stay (10_state.md R34). -/
def State.writePinf (v : Word) (s : State) : State :=
  { s with p := s.p.mapFinIdx fun i r _ => { r with inf := v.getLsbD i } }

/-- `S.T <- t`, by a successful PCHK only (10_state.md R28). -/
def State.setT (t : Bool) (s : State) : State := { s with status := { s.status with t := t } }

/-- `S.ZF <- z`, by a successful KDF only (10_state.md R29). -/
def State.setZF (z : Bool) (s : State) : State := { s with status := { s.status with zf := z } }

/-- `S.OVR <- 1` (60_exceptions.md R216). -/
def State.setOvr (s : State) : State := { s with status := { s.status with ovr := true } }

/-- `S.BERR <- 1` (20_memory.md R71). -/
def State.setBerr (s : State) : State := { s with status := { s.status with berr := true } }

/-- The interrupt output, the level DONE AND IE (60_exceptions.md R218). -/
def State.irq (s : State) : Bool := s.status.done && s.ie

end Sys2Proof.Machine
end

