-- ==== Sys2Proof/Machine/Bus.lean ====
section
/-! DEFINITION. The host's window (10_state.md rule R21, 20_memory.md rules R60 to R73): which register or DBUF byte an
offset names, and the two host transfers. -/

namespace Sys2Proof.Machine

/-! ### The register map (10_state.md R21) -/

/-- A 32-bit register of the register page. -/
inductive Reg where
  | id
  | version
  | ctrl
  | status
  | cmd
  | src
  | dst
  | len
  | klenLo
  | klenHi
  | ct
  | pinf
  | fWord (i : Fin 8) (j : Fin 8)
  | xWord (i : Fin 4) (j : Fin 8)
  | yWord (i : Fin 4) (j : Fin 8)
  | vWord (k : Fin 8)
  | bWord (k : Fin 16)
  deriving DecidableEq, Repr

/-- The offset of a register, as the table of R21 lists them. -/
def Reg.offset : Reg → Nat
  | .id => 0x000
  | .version => 0x004
  | .ctrl => 0x008
  | .status => 0x00C
  | .cmd => 0x010
  | .src => 0x014
  | .dst => 0x018
  | .len => 0x01C
  | .klenLo => 0x020
  | .klenHi => 0x024
  | .ct => 0x028
  | .pinf => 0x02C
  | .fWord i j => 0x100 + 32 * i + 4 * j
  | .xWord i j => 0x200 + 64 * i + 4 * j
  | .yWord i j => 0x220 + 64 * i + 4 * j
  | .vWord k => 0x300 + 4 * k
  | .bWord k => 0x340 + 4 * k

/-- The registers below 0x030 in the order of their offsets (R21). -/
def lowRegs : List Reg := [.id, .version, .ctrl, .status, .cmd, .src, .dst, .len, .klenLo, .klenHi, .ct, .pinf]

/-- The register at an offset of the register page; none where R21 maps none. -/
def regAt (o : Nat) : Option Reg :=
  if o % 4 ≠ 0 then none
  else if o < 0x100 then lowRegs[o / 4]?
  else if o < 0x200 then some (.fWord (Fin.ofNat 8 ((o - 0x100) / 32)) (Fin.ofNat 8 (o / 4)))
  else if o < 0x300 then
    if o / 32 % 2 = 0 then some (.xWord (Fin.ofNat 4 ((o - 0x200) / 64)) (Fin.ofNat 8 (o / 4)))
    else some (.yWord (Fin.ofNat 4 ((o - 0x200) / 64)) (Fin.ofNat 8 (o / 4)))
  else if o < 0x320 then some (.vWord (Fin.ofNat 8 ((o - 0x300) / 4)))
  else if 0x340 ≤ o ∧ o < 0x380 then some (.bWord (Fin.ofNat 16 ((o - 0x340) / 4)))
  else none

/-! ### Legal accesses (20_memory.md R69) -/

/-- What a legal transfer reaches: a register, a DBUF byte, or four DBUF bytes. -/
inductive Target where
  | reg (r : Reg)
  | byte (o : Nat)
  | word (o : Nat)
  deriving DecidableEq, Repr

/-- What a transfer of a width at a window offset reaches; none for a bus error (R69, R71). -/
def target (dbufSize : Nat) (off : BitVec 16) (w : Width) : Option Target :=
  if off.toNat < 0x1000 then
    match w with
    | .w32 => (regAt off.toNat).map .reg
    | .w8 | .w16 => none
  else if off.toNat < 0x1000 + dbufSize then
    match w with
    | .w8 => some (.byte (off.toNat - 0x1000))
    | .w16 => none
    | .w32 => if off.toNat % 4 = 0 then some (.word (off.toNat - 0x1000)) else none
  else none

/-- The window offset of a host address, for a window at `base`; none outside the window (00_scope.md R7, 20_memory.md
R60; assumption log 11). -/
def windowOffset (base addr : Nat) : Option (BitVec 16) :=
  if base ≤ addr ∧ addr < base + 0x10000 then some (BitVec.ofNat 16 (addr - base)) else none

/-! ### Reading -/

/-- The value of a register as the host reads it (10_state.md R22 to R39). -/
def Reg.read (s : State) : Reg → Word
  | .id => Rom.id
  | .version => Rom.version
  | .ctrl => s.ctrlWord
  | .status => s.statusWord
  | .cmd => s.cmd
  | .src => s.src
  | .dst => s.dst
  | .len => s.len
  | .klenLo => s.klenLo
  | .klenHi => s.klenHi
  | .ct => s.ct
  | .pinf => s.pinfWord
  | .fWord i j => getWord s.f[i] j
  | .xWord i j => getWord s.p[i].x j
  | .yWord i j => getWord s.p[i].y j
  | .vWord k => s.v[k]
  | .bWord k => s.b[k]

/-- The value of a legal transfer (20_memory.md R63: big-endian lanes in DBUF). -/
def Target.read (s : State) : Target → Word
  | .reg r => r.read s
  | .byte o => (s.dbuf.read o).setWidth 32
  | .word o => s.dbuf.read o ++ s.dbuf.read (o + 1) ++ s.dbuf.read (o + 2) ++ s.dbuf.read (o + 3)

/-- The registers a host reads truly while the engine is busy (20_memory.md R70). -/
def Target.readableWhileBusy : Target → Bool
  | .reg .id | .reg .version | .reg .ctrl | .reg .status | .reg .cmd => true
  | .reg .src | .reg .dst | .reg .len | .reg .klenLo | .reg .klenHi | .reg .ct | .reg .pinf => false
  | .reg (.fWord _ _) | .reg (.xWord _ _) | .reg (.yWord _ _) | .reg (.vWord _) | .reg (.bWord _) => false
  | .byte _ | .word _ => false

/-- The low bits of a word that a transfer of a width carries (assumption log 9). -/
def Width.take (v : Word) : Width → Word
  | .w8 => v &&& 0xFF
  | .w16 => v &&& 0xFFFF
  | .w32 => v

/-- An unspecified value of a width, of the next draw (20_memory.md R70; assumption log 3). -/
def freeRead (w : Width) (s : State) : Word × State := (w.take (Config.freeWord s.draws), { s with draws := s.draws + 1 })

/-- `HostRead(off, w)`: the value returned and the state after (20_memory.md R70, R71; under hard reset 70_reset R240). -/
def hostRead (off : BitVec 16) (w : Width) (s : State) : Word × State :=
  if s.inReset then freeRead w s
  else
    match target s.dbuf.size off w with
    | none => (0, s.setBerr)
    | some t => if s.engine.isBusy && !t.readableWhileBusy then freeRead w s else (t.read s, s)

/-! ### Writing -/

/-- A write to CTRL (10_state.md R24): SRST performs a soft reset and its IE bit is discarded. -/
def State.writeCtrl (v : Word) (s : State) : State :=
  if v.getLsbD 1 then s.softReset else { s with ie := v.getLsbD 0 }

/-- A host write of a 32-bit word to a register that takes it (10_state.md R22 to R39). -/
def Reg.write (v : Word) (s : State) : Reg → State
  | .id => s
  | .version => s
  | .ctrl => s.writeCtrl v
  | .status => s.acknowledge v
  | .cmd => s.accept v
  | .src => { s with src := v }
  | .dst => { s with dst := v }
  | .len => { s with len := v }
  | .klenLo => { s with klenLo := v }
  | .klenHi => { s with klenHi := v }
  | .ct => s
  | .pinf => s.writePinf v
  | .fWord i j => { s with f := s.f.set i (setWord s.f[i] j v) }
  | .xWord i j => { s with p := s.p.set i { s.p[i] with x := setWord s.p[i].x j v } }
  | .yWord i j => { s with p := s.p.set i { s.p[i] with y := setWord s.p[i].y j v } }
  | .vWord k => { s with v := s.v.set k v }
  | .bWord k => { s with b := s.b.set k v }

/-- A legal write (20_memory.md R63: big-endian lanes in DBUF; an 8-bit transfer carries v[7:0]). -/
def Target.write (v : Word) (s : State) : Target → State
  | .reg r => r.write v s
  | .byte o => s.memWrite o [v.extractLsb' 0 8]
  | .word o => s.memWrite o [v.extractLsb' 24 8, v.extractLsb' 16 8, v.extractLsb' 8 8, v.extractLsb' 0 8]

/-- The two registers that take a write while the engine is busy (20_memory.md R70). -/
def Target.writableWhileBusy : Target → Bool
  | .reg .ctrl | .reg .status => true
  | .reg .id | .reg .version | .reg .cmd => false
  | .reg .src | .reg .dst | .reg .len | .reg .klenLo | .reg .klenHi | .reg .ct | .reg .pinf => false
  | .reg (.fWord _ _) | .reg (.xWord _ _) | .reg (.yWord _ _) | .reg (.vWord _) | .reg (.bWord _) => false
  | .byte _ | .word _ => false

/-- `HostWrite(off, w, v)` (20_memory.md R70, R71; under hard reset 70_reset R240). -/
def hostWrite (off : BitVec 16) (w : Width) (v : Word) (s : State) : State :=
  if s.inReset then s
  else
    match target s.dbuf.size off w with
    | none => s.setBerr
    | some t => if s.engine.isBusy && !t.writableWhileBusy then s.setOvr else t.write v s

end Sys2Proof.Machine
end

