-- ==== Sys2Proof/Machine/FieldFn.lean ====
section
/-! DEFINITION. Arithmetic modulo the prime p (40_field.md rules R110, R111): exact integers, then the non-negative
remainder. -/

namespace Sys2Proof.Machine

/-- `z mod p` in [0, p), for negative z too (00_scope.md R8). -/
def modP (z : Int) : Nat := (z % (Rom.p : Int)).toNat

/-- `b^e mod m` by square and multiply over the low `k` bits of `e`; equal to the power for every `e < 2^k`
(Laws/Arith.lean, powMod_eq). -/
def powMod (m : Nat) : Nat → Nat → Nat → Nat
  | 0, _, _ => 1 % m
  | k + 1, b, e =>
    if e % 2 = 1 then b * powMod m k (b * b % m) (e / 2) % m else powMod m k (b * b % m) (e / 2)

/-- `inv(v) = v^(p-2) mod p` (R111): the inverse by Fermat, 0 for v ≡ 0. -/
def invP (v : Nat) : Nat := powMod Rom.p 256 (v % Rom.p) (Rom.p - 2)

/-- The sum of R115. -/
def addP (x y : U256) : U256 := BitVec.ofNat 256 ((x.toNat + y.toNat) % Rom.p)

/-- The difference of R116. -/
def subP (x y : U256) : U256 := BitVec.ofNat 256 (modP ((x.toNat : Int) - (y.toNat : Int)))

/-- The product of R117. -/
def mulP (x y : U256) : U256 := BitVec.ofNat 256 (x.toNat * y.toNat % Rom.p)

end Sys2Proof.Machine
end

