-- ==== Sys2Proof/Machine/CurveFn.lean ====
section
/-! DEFINITION. Point values and the point functions (00_scope.md rule R14, 41_curve.md rules R132 to R138). -/

namespace Sys2Proof.Machine

/-- A point value (00_scope.md R14). -/
inductive Point where
  | infinity
  | finite (x y : U256)
  deriving DecidableEq, Repr

/-- The canonical form: coordinates reduced mod p (00_scope.md R14). -/
def Point.canon : Point → Point
  | .infinity => .infinity
  | .finite x y => .finite (BitVec.ofNat 256 (x.toNat % Rom.p)) (BitVec.ofNat 256 (y.toNat % Rom.p))

/-- The third point of the line of slope `l` through (x1, y1) and a point with x coordinate x2 (R133). -/
def chord (l x1 y1 x2 : Nat) : Point :=
  let x3 := modP ((l : Int) ^ 2 - (x1 : Int) - (x2 : Int))
  let y3 := modP ((l : Int) * ((x1 : Int) - (x3 : Int)) - (y1 : Int))
  .finite (BitVec.ofNat 256 x3) (BitVec.ofNat 256 y3)

/-- The slope of the tangent at (x1, y1) (R133). -/
def tangentSlope (x1 y1 : Nat) : Nat := (3 * x1 ^ 2 + Rom.a) * invP (2 * y1) % Rom.p

/-- The slope of the line through two points (R133). -/
def lineSlope (x1 y1 x2 y2 : Nat) : Nat :=
  modP (((y2 : Int) - (y1 : Int)) * (invP (modP ((x2 : Int) - (x1 : Int))) : Int))

/-- `add(P, Q)` on canonical points (R133). -/
def Point.add : Point → Point → Point
  | .infinity, q => q
  | .finite x1 y1, .infinity => .finite x1 y1
  | .finite x1 y1, .finite x2 y2 =>
    if x1 = x2 then
      if y1 = y2 then chord (tangentSlope x1.toNat y1.toNat) x1.toNat y1.toNat x2.toNat
      else .infinity
    else chord (lineSlope x1.toNat y1.toNat x2.toNat y2.toNat) x1.toNat y1.toNat x2.toNat

/-- `double(P) = add(P, P)` (R134). -/
def Point.double (q : Point) : Point := q.add q

/-- `n` rounds of double-and-add from bit `i` of the scalar on, with the accumulator R and the doubled base A (R135). -/
def smulLoop (k : U256) : Nat → Nat → Point → Point → Point
  | 0, _, r, _ => r
  | n + 1, i, r, a => smulLoop k n (i + 1) (if k.getLsbD i then r.add a else r) (a.add a)

/-- `smul(k, P)`, over all 256 bits of the scalar (R135). -/
def Point.smul (k : U256) (q : Point) : Point := smulLoop k 256 0 .infinity q

/-- `negate(P)` on canonical points (R136). -/
def Point.negate : Point → Point
  | .infinity => .infinity
  | .finite x y => .finite x (BitVec.ofNat 256 (modP ((Rom.p : Int) - (y.toNat : Int))))

/-- `onCurve(P)` (R137): the equation mod p, false for Infinity. -/
def Point.onCurve : Point → Bool
  | .infinity => false
  | .finite x y =>
    decide (modP ((y.toNat : Int) ^ 2 - ((x.toNat : Int) ^ 3 + (Rom.a : Int) * (x.toNat : Int) + (Rom.b : Int))) = 0)

/-- `be_32(x) ∥ be_32(y)`, the 64 bytes of a finite point (R138). -/
def encodePoint (x y : U256) : List Byte := beBytes 32 x.toNat ++ beBytes 32 y.toNat

/-- `decode(s)` of a 64-byte string (R138). -/
def decodePoint (s : List Byte) : Point :=
  .finite (BitVec.ofNat 256 (intBe (s.take 32))) (BitVec.ofNat 256 (intBe ((s.drop 32).take 32)))

end Sys2Proof.Machine
end

