-- ==== Sys2Proof/Machine/Operands.lean ====
section
/-! DEFINITION. The operand forms of a command (30_encoding.md rules R91, R92): field registers, point registers, the
constant selector and the implicit registers, read and written in one place each. -/

namespace Sys2Proof.Machine

/-! ### Legality of the operand fields (30_encoding.md R91) -/

/-- A legal `F` field. -/
def legalF (x : Nibble) : Bool := decide (x.toNat < 8)

/-- A legal `P` field. -/
def legalP (x : Nibble) : Bool := decide (x.toNat < 4)

/-- A legal constant selector. -/
def legalC (x : Nibble) : Bool := decide (x.toNat < 6)

/-- The register number of an `F` field (its low three bits, all of a legal one). -/
def fIndex (x : Nibble) : Fin 8 := ⟨x.toNat % 8, Nat.mod_lt _ (by decide)⟩

/-- The register number of a `P` field (its low two bits, all of a legal one). -/
def pIndex (x : Nibble) : Fin 4 := ⟨x.toNat % 4, Nat.mod_lt _ (by decide)⟩

/-! ### Field registers (10_state.md R35) -/

/-- `F[i]`. -/
def State.readF (s : State) (i : Nibble) : U256 := s.f[fIndex i]

/-- `F[i] <- x`. -/
def State.writeF (s : State) (i : Nibble) (x : U256) : State := { s with f := s.f.set (fIndex i) x }

/-! ### Point registers (10_state.md R36) -/

/-- The point value of a triple: Infinity when the tag is set, whatever the coordinates. -/
def PointReg.value (r : PointReg) : Point := if r.inf then .infinity else .finite r.x r.y

/-- The triple a command writes for a point value. -/
def Point.toReg : Point → PointReg
  | .infinity => { inf := true, x := 0, y := 0 }
  | .finite x y => { inf := false, x := x, y := y }

/-- The stored triple of `P[i]`. -/
def State.readTriple (s : State) (i : Nibble) : PointReg := s.p[pIndex i]

/-- The triple of `P[i]`, written bit for bit (PMOV, R141). -/
def State.writeTriple (s : State) (i : Nibble) (r : PointReg) : State := { s with p := s.p.set (pIndex i) r }

/-- `P[i]` as a point value (00_scope.md R12, R14). -/
def State.readP (s : State) (i : Nibble) : Point := (s.readTriple i).value

/-- `canon(P[i])`, how every point-arithmetic command reads an operand (41_curve.md R132). -/
def State.readCanon (s : State) (i : Nibble) : Point := (s.readP i).canon

/-- `P[i] <- q`. -/
def State.writeP (s : State) (i : Nibble) (q : Point) : State := s.writeTriple i q.toReg

/-! ### The constant selector (30_encoding.md R91, 40_field.md R113) -/

/-- `[p, a, b, n, Gx, Gy][c]` for the legal selectors 0..5. -/
def curveConst (c : Nibble) : U256 :=
  BitVec.ofNat 256 ([Rom.p, Rom.a, Rom.b, Rom.n, Rom.gx, Rom.gy].getD c.toNat 0)

end Sys2Proof.Machine
end

