-- ==== Sys2Proof/Machine/FieldCmds.lean ====
section
/-! DEFINITION. The general and field commands (40_field.md rules R112 to R119). -/

namespace Sys2Proof.Machine

/-- NOP (R112). -/
def execNop (s : State) : Host.Outcome State Fault Refusal := runCommand true (.ok s) s

/-- FLDC fd, c (R113): the ROM constant itself, not reduced. -/
def execFldc (d c : Nibble) (s : State) : Host.Outcome State Fault Refusal :=
  runCommand (legalF d && legalC c) (.ok (s.writeF d (curveConst c))) s

/-- FMOV fd, fa (R114): a copy, not reduced. -/
def execFmov (d a : Nibble) (s : State) : Host.Outcome State Fault Refusal :=
  runCommand (legalF d && legalF a) (.ok (s.writeF d (s.readF a))) s

/-- MADD fd, fa, fb (R115). -/
def execMadd (d a b : Nibble) (s : State) : Host.Outcome State Fault Refusal :=
  runCommand (legalF d && legalF a && legalF b) (.ok (s.writeF d (addP (s.readF a) (s.readF b)))) s

/-- MSUB fd, fa, fb (R116). -/
def execMsub (d a b : Nibble) (s : State) : Host.Outcome State Fault Refusal :=
  runCommand (legalF d && legalF a && legalF b) (.ok (s.writeF d (subP (s.readF a) (s.readF b)))) s

/-- MMUL fd, fa, fb (R117). -/
def execMmul (d a b : Nibble) (s : State) : Host.Outcome State Fault Refusal :=
  runCommand (legalF d && legalF a && legalF b) (.ok (s.writeF d (mulP (s.readF a) (s.readF b)))) s

/-- MINV fd, fa (R118): no error for a zero input. -/
def execMinv (d a : Nibble) (s : State) : Host.Outcome State Fault Refusal :=
  runCommand (legalF d && legalF a) (.ok (s.writeF d (BitVec.ofNat 256 (invP (s.readF a).toNat)))) s

end Sys2Proof.Machine
end

