-- ==== Sys2Proof/Machine/Sm3Fn.lean ====
section
/-! DEFINITION. The SM3 functions (42_sm3.md rules R170 to R179). All words are 32 bits and `+` wraps (R11). -/

namespace Sys2Proof.Machine.Sm3

/-- Left rotation by `k mod 32` (00_scope.md R11). -/
def rotl (x : Word) (k : Nat) : Word := (x <<< (k % 32)) ||| (x >>> (32 - k % 32))

/-- The round constant T[j] (R171). -/
def roundConst (j : Nat) : Word := if j < 16 then 0x79CC4519 else 0x7A879D8A

/-- FF[j] (R172). -/
def ff (j : Nat) (x y z : Word) : Word :=
  if j < 16 then x ^^^ y ^^^ z else (x &&& y) ||| (x &&& z) ||| (y &&& z)

/-- GG[j] (R172). -/
def gg (j : Nat) (x y z : Word) : Word :=
  if j < 16 then x ^^^ y ^^^ z else (x &&& y) ||| (~~~x &&& z)

/-- The permutation P0 (R173). -/
def perm0 (x : Word) : Word := x ^^^ rotl x 9 ^^^ rotl x 17

/-- The permutation P1 (R173). -/
def perm1 (x : Word) : Word := x ^^^ rotl x 15 ^^^ rotl x 23

/-- The number k of zero bytes of the padding: the least with `(len + 1 + k) mod 64 = 56` (R174). -/
def padZeros (len : Nat) : Nat := (119 - len % 64) % 64

/-- `pad(m)` (R174). -/
def pad (m : List Byte) : List Byte :=
  m ++ [0x80] ++ List.replicate (padZeros m.length) 0 ++ beBytes 8 (8 * m.length)

/-- The sixteen big-endian words of block i of a padded message (R175). -/
def blockWords (pm : List Byte) (i : Nat) : List Word :=
  (List.range 16).map fun k => BitVec.ofNat 32 (intBe ((pm.drop (64 * i + 4 * k)).take 4))

/-- W[i] from the words before it, for i >= 16 (R176). -/
def expandWord (w : List Word) (i : Nat) : Word :=
  perm1 (w.getD (i - 16) 0 ^^^ w.getD (i - 9) 0 ^^^ rotl (w.getD (i - 3) 0) 15)
    ^^^ rotl (w.getD (i - 13) 0) 7 ^^^ w.getD (i - 6) 0

/-- W[0..67] from the sixteen words of a block (R176). -/
def expand (block : List Word) : List Word :=
  (List.range' 16 52).foldl (fun w i => w ++ [expandWord w i]) block

/-- The working registers A..H of one compression (R177). -/
structure Regs where
  a : Word
  b : Word
  c : Word
  d : Word
  e : Word
  f : Word
  g : Word
  h : Word
  deriving DecidableEq, Repr

/-- Round j of the compression on the schedule W, with `W'[j] = W[j] xor W[j+4]` (R176, R177). -/
def round (w : List Word) (r : Regs) (j : Nat) : Regs :=
  let ss1 := rotl (rotl r.a 12 + r.e + rotl (roundConst j) (j % 32)) 7
  let ss2 := ss1 ^^^ rotl r.a 12
  let tt1 := ff j r.a r.b r.c + r.d + ss2 + (w.getD j 0 ^^^ w.getD (j + 4) 0)
  let tt2 := gg j r.e r.f r.g + r.h + ss1 + w.getD j 0
  { a := tt1, b := r.a, c := rotl r.b 9, d := r.c, e := perm0 tt2, f := r.e, g := rotl r.f 19, h := r.g }

/-- The working registers after all 64 rounds from the running state V (R177). -/
def rounds (v : Vector Word 8) (block : List Word) : Regs :=
  (List.range 64).foldl (round (expand block))
    { a := v[0], b := v[1], c := v[2], d := v[3], e := v[4], f := v[5], g := v[6], h := v[7] }

/-- The compression function CF(V, W[0..15]) (R177). -/
def compress (v : Vector Word 8) (block : List Word) : Vector Word 8 :=
  let r := rounds v block
  #v[r.a ^^^ v[0], r.b ^^^ v[1], r.c ^^^ v[2], r.d ^^^ v[3], r.e ^^^ v[4], r.f ^^^ v[5], r.g ^^^ v[6], r.h ^^^ v[7]]

/-- The running state after all blocks of a message, from the IV on, in order (R179). -/
def hashState (m : List Byte) : Vector Word 8 :=
  (List.range ((pad m).length / 64)).foldl (fun v i => compress v (blockWords (pad m) i)) Rom.sm3Iv

/-- The digest of a running state: its words big-endian, V0 first (R178). -/
def digest (v : Vector Word 8) : List Byte := v.toList.flatMap fun x => beBytes 4 x.toNat

/-- SM3(m), 32 bytes (R179). -/
def hash (m : List Byte) : List Byte := digest (hashState m)

end Sys2Proof.Machine.Sm3
end

