-- ==== Sys2Proof/Machine/HashCmds.lean ====
section
/-! DEFINITION. The SM3 commands (42_sm3.md rules R180 to R182). -/

namespace Sys2Proof.Machine

/-- HINIT (R180). -/
def execHinit (s : State) : Host.Outcome State Fault Refusal := runCommand true (.ok { s with v := Rom.sm3Iv }) s

/-- HCOMP (R181): V <- CF(V, B), no padding, B kept. -/
def execHcomp (s : State) : Host.Outcome State Fault Refusal :=
  runCommand true (.ok { s with v := Sm3.compress s.v s.b.toList }) s

/-- The body of HASH (R182): the source range is checked before the destination range. -/
def hashBody (s : State) : Except CmdError State :=
  if s.dbuf.inRange s.src.toNat s.len.toNat = false then .error .range
  else if s.dbuf.inRange s.dst.toNat 32 = false then .error .range
  else
    let v := Sm3.hashState (s.memRead s.src.toNat s.len.toNat)
    .ok { s.memWrite s.dst.toNat (Sm3.digest v) with v := v }

/-- HASH (R182). -/
def execHash (s : State) : Host.Outcome State Fault Refusal := runCommand true (hashBody s) s

end Sys2Proof.Machine
end

