-- ==== Sys2Proof/Machine/KdfFn.lean ====
section
/-! DEFINITION. The key-derivation function (43_kdf.md rules R200 to R204). -/

namespace Sys2Proof.Machine.Kdf

/-- `n` rounds of the counter-mode expansion from the key bytes and counter reached (R200). -/
def loop (z : List Byte) : Nat → List Byte → Word → List Byte × Word
  | 0, k, ct => (k, ct)
  | n + 1, k, ct => loop z n (k ++ Sm3.hash (z ++ beBytes 4 ct.toNat)) (ct + 1)

/-- The concatenated digests and the counter left, from counter 1 (R200). -/
def expand (z : List Byte) (klen : Nat) : List Byte × Word := loop z ((klen + 255) / 256) [] 1

/-- The byte with its low `n` bits 0. -/
def clearLow (n : Nat) (x : Byte) : Byte := (x >>> n) <<< n

/-- `truncate(K, klen)` as bytes: the first ⌈klen/8⌉, the bits beyond klen in the last one 0 (R201). -/
def truncate (k : List Byte) (klen : Nat) : List Byte :=
  let t := k.take ((klen + 7) / 8)
  match t.getLast? with
  | none => []
  | some x => t.dropLast ++ [clearLow (8 * ((klen + 7) / 8) - klen) x]

/-- The output bytes of KDF(Z, klen) (R200, R201). -/
def output (z : List Byte) (klen : Nat) : List Byte := truncate (expand z klen).1 klen

/-- The counter KDF(Z, klen) leaves (R200, R204). -/
def counter (z : List Byte) (klen : Nat) : Word := (expand z klen).2

/-- The all-zero test on the output bytes (R203). The bits beyond klen are 0 by R201, so it is the test of the klen
output bits; it holds of no bytes. -/
def allZero (k : List Byte) : Bool := k.all (· == 0)

/-- The length limit of R202. -/
def lengthLimit : Nat := (2 ^ 32 - 1) * 256

end Sys2Proof.Machine.Kdf
end

