-- ==== Sys2Proof/Machine/KdfCmds.lean ====
section
/-! DEFINITION. The KDF command (43_kdf.md rule R209). -/

namespace Sys2Proof.Machine

/-- The body of KDF (R209), its errors in the order KDF_OVF, RANGE of the source, RANGE of the destination. -/
def kdfBody (s : State) : Except CmdError State :=
  if Kdf.lengthLimit ≤ s.klen then .error .kdfOvf
  else if s.dbuf.inRange s.src.toNat s.len.toNat = false then .error .range
  else if s.dbuf.inRange s.dst.toNat ((s.klen + 7) / 8) = false then .error .range
  else
    let z := s.memRead s.src.toNat s.len.toNat
    .ok ({ s.memWrite s.dst.toNat (Kdf.output z s.klen) with ct := Kdf.counter z s.klen }.setZF
      (Kdf.allZero (Kdf.output z s.klen)))

/-- KDF (R209). -/
def execKdf (s : State) : Host.Outcome State Fault Refusal := runCommand true (kdfBody s) s

end Sys2Proof.Machine
end

