-- ==== Sys2Proof/Machine/PointCmds.lean ====
section
/-! DEFINITION. The point commands (41_curve.md rules R139 to R151). -/

namespace Sys2Proof.Machine

/-- PLDG pd (R139): the generator G. -/
def execPldg (d : Nibble) (s : State) : Host.Outcome State Fault Refusal :=
  runCommand (legalP d) (.ok (s.writeP d (.finite (BitVec.ofNat 256 Rom.gx) (BitVec.ofNat 256 Rom.gy)))) s

/-- PSETINF pd (R140). -/
def execPsetinf (d : Nibble) (s : State) : Host.Outcome State Fault Refusal :=
  runCommand (legalP d) (.ok (s.writeP d .infinity)) s

/-- PMOV pd, pa (R141): the triple bit for bit, the coordinates of an Infinity included. -/
def execPmov (d a : Nibble) (s : State) : Host.Outcome State Fault Refusal :=
  runCommand (legalP d && legalP a) (.ok (s.writeTriple d (s.readTriple a))) s

/-- PSET pd, fa, fb (R142): no reduction and no curve check. -/
def execPset (d a b : Nibble) (s : State) : Host.Outcome State Fault Refusal :=
  runCommand (legalP d && legalF a && legalF b) (.ok (s.writeP d (.finite (s.readF a) (s.readF b)))) s

/-- FGETX fd, pa (R143): the stored X, of an Infinity too. -/
def execFgetx (d a : Nibble) (s : State) : Host.Outcome State Fault Refusal :=
  runCommand (legalF d && legalP a) (.ok (s.writeF d (s.readTriple a).x)) s

/-- FGETY fd, pa (R144): the stored Y, of an Infinity too. -/
def execFgety (d a : Nibble) (s : State) : Host.Outcome State Fault Refusal :=
  runCommand (legalF d && legalP a) (.ok (s.writeF d (s.readTriple a).y)) s

/-- PNEG pd, pa (R145). -/
def execPneg (d a : Nibble) (s : State) : Host.Outcome State Fault Refusal :=
  runCommand (legalP d && legalP a) (.ok (s.writeP d (s.readCanon a).negate)) s

/-- PADD pd, pa, pb (R146). -/
def execPadd (d a b : Nibble) (s : State) : Host.Outcome State Fault Refusal :=
  runCommand (legalP d && legalP a && legalP b) (.ok (s.writeP d ((s.readCanon a).add (s.readCanon b)))) s

/-- PDBL pd, pa (R147). -/
def execPdbl (d a : Nibble) (s : State) : Host.Outcome State Fault Refusal :=
  runCommand (legalP d && legalP a) (.ok (s.writeP d (s.readCanon a).double)) s

/-- PMUL pd, fa, pb (R148): the whole scalar, no range check. -/
def execPmul (d a b : Nibble) (s : State) : Host.Outcome State Fault Refusal :=
  runCommand (legalP d && legalF a && legalP b) (.ok (s.writeP d (Point.smul (s.readF a) (s.readCanon b)))) s

/-- PCHK pa (R149). -/
def execPchk (a : Nibble) (s : State) : Host.Outcome State Fault Refusal :=
  runCommand (legalP a) (.ok (s.setT (s.readCanon a).onCurve)) s

/-- The body of PSTORE (R150): the stored coordinates; Infinity has no encoding, and that error comes before RANGE. -/
def pstoreBody (a : Nibble) (s : State) : Except CmdError State :=
  if (s.readTriple a).inf then .error .infEncode
  else if s.dbuf.inRange s.dst.toNat 64 then
    .ok (s.memWrite s.dst.toNat (encodePoint (s.readTriple a).x (s.readTriple a).y))
  else .error .range

/-- PSTORE pa (R150). -/
def execPstore (a : Nibble) (s : State) : Host.Outcome State Fault Refusal :=
  runCommand (legalP a) (pstoreBody a s) s

/-- The body of PLOAD (R151): no validation and no reduction. -/
def ploadBody (d : Nibble) (s : State) : Except CmdError State :=
  if s.dbuf.inRange s.src.toNat 64 then .ok (s.writeP d (decodePoint (s.memRead s.src.toNat 64)))
  else .error .range

/-- PLOAD pd (R151). -/
def execPload (d : Nibble) (s : State) : Host.Outcome State Fault Refusal :=
  runCommand (legalP d) (ploadBody d s) s

end Sys2Proof.Machine
end

