-- ==== Sys2Proof/Machine/Dispatch.lean ====
section
/-! DEFINITION. One arm per command: its completion on the state it finds (60_exceptions.md rule R211). -/

namespace Sys2Proof.Machine

def exec (i : Instr) (s : State) : Host.Outcome State Fault Refusal :=
  match i with
  | .nop => Sys2Proof.Machine.execNop s
  | .fldc d c => Sys2Proof.Machine.execFldc d c s
  | .fmov d a => Sys2Proof.Machine.execFmov d a s
  | .madd d a b => Sys2Proof.Machine.execMadd d a b s
  | .msub d a b => Sys2Proof.Machine.execMsub d a b s
  | .mmul d a b => Sys2Proof.Machine.execMmul d a b s
  | .minv d a => Sys2Proof.Machine.execMinv d a s
  | .pldg d => Sys2Proof.Machine.execPldg d s
  | .psetinf d => Sys2Proof.Machine.execPsetinf d s
  | .pmov d a => Sys2Proof.Machine.execPmov d a s
  | .pset d a b => Sys2Proof.Machine.execPset d a b s
  | .fgetx d a => Sys2Proof.Machine.execFgetx d a s
  | .fgety d a => Sys2Proof.Machine.execFgety d a s
  | .pneg d a => Sys2Proof.Machine.execPneg d a s
  | .padd d a b => Sys2Proof.Machine.execPadd d a b s
  | .pdbl d a => Sys2Proof.Machine.execPdbl d a s
  | .pmul d a b => Sys2Proof.Machine.execPmul d a b s
  | .pchk a => Sys2Proof.Machine.execPchk a s
  | .pstore a => Sys2Proof.Machine.execPstore a s
  | .pload d => Sys2Proof.Machine.execPload d s
  | .hinit => Sys2Proof.Machine.execHinit s
  | .hcomp => Sys2Proof.Machine.execHcomp s
  | .hash => Sys2Proof.Machine.execHash s
  | .kdf => Sys2Proof.Machine.execKdf s

end Sys2Proof.Machine
end

