-- ==== Sys2Proof/Machine/Engine.lean ====
section
/-! DEFINITION. Whose turn it is and what one turn does (00_scope.md rule R17, 20_memory.md rule R76, 60_exceptions.md
rules R210, R211). -/

namespace Sys2Proof.Machine

/-- The engine's turn: while Busy(c) it executes c and completes, a word that is not legal with ILLEGAL (R211, R212);
while Idle, or under hard reset, it has no step and nothing changes (assumption log 1, 8). -/
def engineTurn (s : State) : Host.Outcome State Fault Refusal :=
  if s.inReset then .next s
  else
    match s.engine with
    | .idle => .next s
    | .busy c =>
      match decode c with
      | .ok i => exec i s
      | .error _ => .next (s.raiseCmdError .illegal)

/-- A host read: what it returned stands in `rdata` (assumption log 2). -/
def State.busRead (off : BitVec 16) (w : Width) (s : State) : State :=
  { (hostRead off w s).2 with rdata := (hostRead off w s).1 }

/-- One event. -/
def runEvent (e : Event) (s : State) : Host.Outcome State Fault Refusal :=
  match e with
  | .hostRead off w => .next (s.busRead off w)
  | .hostWrite off w v => .next (hostWrite off w v s)
  | .engineTurn => engineTurn s
  | .resetAsserted => .next { s with inReset := true }
  | .resetReleased => .next (if s.inReset then s.hardReset else s)

/-- One step: the next scheduled event; with none scheduled the engine has the turn, so that a busy engine completes
(70_reset_and_hazards.md R256; assumption log 1). -/
def takeTurn (s : State) : Host.Outcome State Fault Refusal :=
  match s.events with
  | [] => engineTurn s
  | e :: rest => runEvent e { s with events := rest }

end Sys2Proof.Machine
end

