-- ==== Sys2Proof/Machine/Step.lean ====
section
/-! DEFINITION. The step function, and the state whose very next step runs a given command word. -/

namespace Sys2Proof.Machine

/-- One step of the machine. -/
def step (s : State) : Host.Outcome State Fault Refusal := takeTurn s

/-- `s` with the command of `nbits` bits `w` (the bits above zero) accepted and the engine's turn next, so that the next
step executes and completes it. The core fetches nothing (20_memory.md rules R74, R80): a program is a host script, and
this stands for its write to CMD (assumption log 10). -/
def State.withFetchWord (s : State) (nbits w : Nat) : State := s.withAccepted (BitVec.ofNat 32 (w % 2 ^ nbits))

end Sys2Proof.Machine
end

