-- ==== Sys2Proof/Safety.lean ====
section
/-! DEFINITION. What holds in every state the machine can be in, and what a safe step is. -/

namespace Sys2Proof.Machine

/-- The invariant of the machine. DBUF keeps its form and its size is one R7 admits. While the engine is Busy(c), CMD
holds c and DONE is 0 (60_exceptions.md R210). ERRCODE is NONE exactly while ERR is 0 (R212, R214, 10_state.md R27). The
power-on bytes of DBUF come from a draw already made. -/
structure State.Inv (s : State) : Prop where
  dbuf_wf : s.dbuf.wf = true
  busy_cmd : ∀ c, s.engine = .busy c → s.cmd = c ∧ s.status.done = false
  err_code : s.status.err = false ↔ s.status.errcode = none
  draw_past : s.dbuf.draw < s.draws

/-- A step is safe when it has a next state: no fault and no refusal. The spec lets nothing stop the core (R221). -/
def State.stepSafe (s : State) : Prop := ∃ t, step s = .next t

end Sys2Proof.Machine
end

