-- ==== Sys2Proof/Certificates/Slice0/Obligations.lean ====
section
/-! DEFINITION. The statements for the provers. The small predicates they share stand first, in namespace Claims; each
statement's docstring says which rule of the spec it rests on. -/

namespace Sys2Proof.Claims

open Sys2Proof.Machine

/-- The operand field naming register number `i`. -/
def reg (i : Nat) : Nibble := BitVec.ofNat 4 i

/-- A successful completion that changes nothing else (60_exceptions.md R211). -/
def succeeded (s : State) : State :=
  { s with engine := .idle, status := { s.status with done := true } }

/-- A completion with an error (60_exceptions.md R211, R214). -/
def failed (code : CmdError) (s : State) : State :=
  { s with engine := .idle, status := { s.status with done := true, err := true, errcode := some code } }

/-- The command completes, F[d] holds `v`, every other register, flag and byte is as the completion leaves it. -/
def WritesF (i : Instr) (s : State) (d : Fin 8) (v : U256) : Prop :=
  ∃ t, exec i s = .next t ∧ t = { succeeded s with f := t.f } ∧ ∀ j : Fin 8, t.f[j] = if j = d then v else s.f[j]

/-- The command completes, P[d] holds the triple `r`, every other register, flag and byte is as the completion leaves
it. -/
def WritesP (i : Instr) (s : State) (d : Fin 4) (r : PointReg) : Prop :=
  ∃ t, exec i s = .next t ∧ t = { succeeded s with p := t.p } ∧ ∀ j : Fin 4, t.p[j] = if j = d then r else s.p[j]

/-- A word is legal (30_encoding.md R91, R93, R94), as arithmetic on the number it is. -/
def LegalWord (w : Nat) : Prop :=
  let op := w % 2 ^ 8
  let rd := w / 2 ^ 8 % 2 ^ 4
  let ra := w / 2 ^ 12 % 2 ^ 4
  let rb := w / 2 ^ 16 % 2 ^ 4
  w / 2 ^ 20 = 0 ∧
  (op ∈ [0x00, 0x30, 0x31, 0x32, 0x40] ∧ rd = 0 ∧ ra = 0 ∧ rb = 0 ∨
   op = 0x01 ∧ rd < 8 ∧ ra < 6 ∧ rb = 0 ∨
   op ∈ [0x02, 0x13] ∧ rd < 8 ∧ ra < 8 ∧ rb = 0 ∨
   op ∈ [0x10, 0x11, 0x12] ∧ rd < 8 ∧ ra < 8 ∧ rb < 8 ∨
   op ∈ [0x20, 0x21, 0x2C] ∧ rd < 4 ∧ ra = 0 ∧ rb = 0 ∨
   op ∈ [0x22, 0x26, 0x28] ∧ rd < 4 ∧ ra < 4 ∧ rb = 0 ∨
   op = 0x23 ∧ rd < 4 ∧ ra < 8 ∧ rb < 8 ∨
   op ∈ [0x24, 0x25] ∧ rd < 8 ∧ ra < 4 ∧ rb = 0 ∨
   op = 0x27 ∧ rd < 4 ∧ ra < 4 ∧ rb < 4 ∨
   op = 0x29 ∧ rd < 4 ∧ ra < 8 ∧ rb < 4 ∨
   op ∈ [0x2A, 0x2B] ∧ rd = 0 ∧ ra < 4 ∧ rb = 0)

/-- An offset of the register page that R21 maps. -/
def Mapped (o : Nat) : Prop :=
  o % 4 = 0 ∧ (o ≤ 0x02C ∨ 0x100 ≤ o ∧ o < 0x320 ∨ 0x340 ≤ o ∧ o < 0x380)

/-- A legal host access (20_memory.md R69). -/
def LegalAccess (size : Nat) (off : BitVec 16) (w : Width) : Prop :=
  off.toNat < 0x1000 ∧ w = .w32 ∧ Mapped off.toNat ∨
  0x1000 ≤ off.toNat ∧ off.toNat < 0x1000 + size ∧ (w = .w8 ∨ w = .w32 ∧ off.toNat % 4 = 0)

/-- A register whose written value is stored whole (10_state.md R21: "RW"): SRC to KLEN_HI, F, P, V, B. -/
def StoredWhole (o : Nat) : Prop :=
  o % 4 = 0 ∧ (0x014 ≤ o ∧ o ≤ 0x024 ∨ 0x100 ≤ o ∧ o < 0x320 ∨ 0x340 ≤ o ∧ o < 0x380)

/-- The reset values of 10_state.md R44, DBUF, the reset input and the model's own fields left out. -/
def withResetValues (s : State) : State :=
  { s with
    ie := false
    status := { done := false, err := false, ovr := false, berr := false, t := false, zf := false, errcode := none }
    cmd := 0, src := 0, dst := 0, len := 0, klenLo := 0, klenHi := 0, ct := 0
    f := #v[0, 0, 0, 0, 0, 0, 0, 0]
    p := #v[⟨true, 0, 0⟩, ⟨true, 0, 0⟩, ⟨true, 0, 0⟩, ⟨true, 0, 0⟩]
    v := #v[0x7380166F, 0x4914B2B9, 0x172442D7, 0xDA8A0600, 0xA96F30BC, 0x163138AA, 0xE38DEE4D, 0xB0FB0E4E]
    b := #v[0, 0, 0, 0, 0, 0, 0, 0, 0, 0, 0, 0, 0, 0, 0, 0]
    engine := .idle }

/-- DBUF byte `o` is one the command word `c` was due to write (70_reset_and_hazards.md R242): PSTORE, HASH and KDF, each
only where the range checks of R66 would pass. -/
def DueByte (s : State) (c : Word) (o : Nat) : Prop :=
  (∃ k < 4, c.toNat = 0x2B + k * 2 ^ 12) ∧ s.dst.toNat + 64 ≤ s.dbuf.size ∧ s.dst.toNat ≤ o ∧ o < s.dst.toNat + 64 ∨
  c = 0x32 ∧ s.src.toNat + s.len.toNat ≤ s.dbuf.size ∧ s.dst.toNat + 32 ≤ s.dbuf.size ∧
    s.dst.toNat ≤ o ∧ o < s.dst.toNat + 32 ∨
  c = 0x40 ∧ s.src.toNat + s.len.toNat ≤ s.dbuf.size ∧ s.dst.toNat + (s.klen + 7) / 8 ≤ s.dbuf.size ∧
    s.dst.toNat ≤ o ∧ o < s.dst.toNat + (s.klen + 7) / 8

/-- The six constants of 41_curve.md R130 in the order of the selector (30_encoding.md R91). -/
def constants : Vector U256 6 := #v[
  0xFFFFFFFEFFFFFFFFFFFFFFFFFFFFFFFFFFFFFFFF00000000FFFFFFFFFFFFFFFF,
  0xFFFFFFFEFFFFFFFFFFFFFFFFFFFFFFFFFFFFFFFF00000000FFFFFFFFFFFFFFFC,
  0x28E9FA9E9D9F5E344D5A9E4BCF6509A7F39789F515AB8F92DDBCBD414D940E93,
  0xFFFFFFFEFFFFFFFFFFFFFFFFFFFFFFFF7203DF6B21C6052B53BBF40939D54123,
  0x32C4AE2C1F1981195F9904466A39C9948FE30BBFF2660BE1715A4589334C74C7,
  0xBC3736A2F4F6779C59BDCEE36B692153D0A9877CC62A474002DF32E52139F0A0]

/-- The commands of 40_field.md R119. -/
def isFieldCommand : Instr → Bool
  | .nop | .fldc _ _ | .fmov _ _ | .madd _ _ _ | .msub _ _ _ | .mmul _ _ _ | .minv _ _ => true
  | .pldg _ | .psetinf _ | .pmov _ _ | .pset _ _ _ | .fgetx _ _ | .fgety _ _ | .pneg _ _ | .padd _ _ _ | .pdbl _ _ => false
  | .pmul _ _ _ | .pchk _ | .pstore _ | .pload _ | .hinit | .hcomp | .hash | .kdf => false

/-- Byte `i` of a 256-bit value in big-endian order (00_scope.md R10). -/
def byteOf (x : U256) (i : Nat) : Byte := x.extractLsb' (8 * (31 - i)) 8

/-- The point value a triple holds, with coordinates reduced mod p (00_scope.md R14, 41_curve.md R132). -/
def canonOf (r : PointReg) : Point :=
  if r.inf then .infinity else .finite (BitVec.ofNat 256 (r.x.toNat % Rom.p)) (BitVec.ofNat 256 (r.y.toNat % Rom.p))

/-- The triple written for a point value (10_state.md R36). -/
def tripleOf : Point → PointReg
  | .infinity => ⟨true, 0, 0⟩
  | .finite x y => ⟨false, x, y⟩

/-- `inv(v) = v^(p-2) mod p` (40_field.md R111), as integers. -/
def inverse (v : Int) : Int := v ^ (Rom.p - 2) % (Rom.p : Int)

/-- The coordinates lie in [0, p). -/
def Reduced : Point → Prop
  | .infinity => True
  | .finite x y => x.toNat < Rom.p ∧ y.toNat < Rom.p

/-- `v'` is the compression of `v` and the sixteen words of a block: there are a schedule W and working registers round
by round as 42_sm3.md R171 to R173, R176 and R177 say. -/
def CompressesTo (v : Vector Word 8) (block : Vector Word 16) (v' : Vector Word 8) : Prop :=
  ∃ (w : Nat → Word) (a b c d e f g h : Nat → Word),
    (∀ k : Fin 16, w k = block[k]) ∧
    (∀ i, 16 ≤ i → i < 68 →
      let y := w (i - 16) ^^^ w (i - 9) ^^^ (w (i - 3)).rotateLeft 15
      w i = (y ^^^ y.rotateLeft 15 ^^^ y.rotateLeft 23) ^^^ (w (i - 13)).rotateLeft 7 ^^^ w (i - 6)) ∧
    (a 0 = v[0] ∧ b 0 = v[1] ∧ c 0 = v[2] ∧ d 0 = v[3] ∧ e 0 = v[4] ∧ f 0 = v[5] ∧ g 0 = v[6] ∧ h 0 = v[7]) ∧
    (∀ j < 64,
      let t : Word := if j < 16 then 0x79CC4519 else 0x7A879D8A
      let ss1 := ((a j).rotateLeft 12 + e j + t.rotateLeft (j % 32)).rotateLeft 7
      let ss2 := ss1 ^^^ (a j).rotateLeft 12
      let ff := if j < 16 then a j ^^^ b j ^^^ c j else (a j &&& b j) ||| (a j &&& c j) ||| (b j &&& c j)
      let gg := if j < 16 then e j ^^^ f j ^^^ g j else (e j &&& f j) ||| (~~~(e j) &&& g j)
      let tt1 := ff + d j + ss2 + (w j ^^^ w (j + 4))
      let tt2 := gg + h j + ss1 + w j
      d (j + 1) = c j ∧ c (j + 1) = (b j).rotateLeft 9 ∧ b (j + 1) = a j ∧ a (j + 1) = tt1 ∧
      h (j + 1) = g j ∧ g (j + 1) = (f j).rotateLeft 19 ∧ f (j + 1) = e j ∧
      e (j + 1) = tt2 ^^^ tt2.rotateLeft 9 ^^^ tt2.rotateLeft 17) ∧
    v' = #v[a 64 ^^^ v[0], b 64 ^^^ v[1], c 64 ^^^ v[2], d 64 ^^^ v[3],
            e 64 ^^^ v[4], f 64 ^^^ v[5], g 64 ^^^ v[6], h 64 ^^^ v[7]]

/-- Bit `q` of byte `j` (bit 0 the first, most significant one) of the key stream SM3(Z ∥ 1) ∥ SM3(Z ∥ 2) ∥ .. of
43_kdf.md R200. -/
def keyBit (z : List Byte) (j q : Nat) : Bool :=
  ((Sm3.hash (z ++ beBytes 4 ((1 + j / 32) % 2 ^ 32))).getD (j % 32) 0).getLsbD (7 - q)

end Sys2Proof.Claims

open Sys2Proof Sys2Proof.Machine Sys2Proof.Claims

/-! ### Encoding (30_encoding.md) -/

/-- Decoding the word of a well-formed command gives the command, with every operand (R90 to R95). -/
def Obligations.DecodeOfEncodedCommand : Prop :=
  ∀ i : Instr, i.wf = true → decode (encode i) = .ok i

/-- A word the decoder takes stands for one well-formed command, whose word it is: there are no second spellings and no
ignored bits (R97). -/
def Obligations.DecodedWordEncodesBack : Prop :=
  ∀ (w : Word) (i : Instr), decode w = .ok i → i.wf = true ∧ encode i = w

/-- R93: the decoder takes a word exactly when it is legal. -/
def Obligations.DecodeAcceptsExactlyTheLegalWords : Prop :=
  ∀ w : Word, (∃ i, decode w = .ok i) ↔ LegalWord w.toNat

/-- R95: the word of a command is OP + RD·2^8 + RA·2^12 + RB·2^16, for every opcode of R94, and its two examples. -/
def Obligations.CommandWordIsTheSumOfItsFields : Prop :=
  (∀ d a b : Nibble,
    (encode .nop).toNat = 0x00 ∧
    (encode (.fldc d a)).toNat = 0x01 + d.toNat * 2 ^ 8 + a.toNat * 2 ^ 12 ∧
    (encode (.fmov d a)).toNat = 0x02 + d.toNat * 2 ^ 8 + a.toNat * 2 ^ 12 ∧
    (encode (.madd d a b)).toNat = 0x10 + d.toNat * 2 ^ 8 + a.toNat * 2 ^ 12 + b.toNat * 2 ^ 16 ∧
    (encode (.msub d a b)).toNat = 0x11 + d.toNat * 2 ^ 8 + a.toNat * 2 ^ 12 + b.toNat * 2 ^ 16 ∧
    (encode (.mmul d a b)).toNat = 0x12 + d.toNat * 2 ^ 8 + a.toNat * 2 ^ 12 + b.toNat * 2 ^ 16 ∧
    (encode (.minv d a)).toNat = 0x13 + d.toNat * 2 ^ 8 + a.toNat * 2 ^ 12 ∧
    (encode (.pldg d)).toNat = 0x20 + d.toNat * 2 ^ 8 ∧
    (encode (.psetinf d)).toNat = 0x21 + d.toNat * 2 ^ 8 ∧
    (encode (.pmov d a)).toNat = 0x22 + d.toNat * 2 ^ 8 + a.toNat * 2 ^ 12 ∧
    (encode (.pset d a b)).toNat = 0x23 + d.toNat * 2 ^ 8 + a.toNat * 2 ^ 12 + b.toNat * 2 ^ 16 ∧
    (encode (.fgetx d a)).toNat = 0x24 + d.toNat * 2 ^ 8 + a.toNat * 2 ^ 12 ∧
    (encode (.fgety d a)).toNat = 0x25 + d.toNat * 2 ^ 8 + a.toNat * 2 ^ 12 ∧
    (encode (.pneg d a)).toNat = 0x26 + d.toNat * 2 ^ 8 + a.toNat * 2 ^ 12 ∧
    (encode (.padd d a b)).toNat = 0x27 + d.toNat * 2 ^ 8 + a.toNat * 2 ^ 12 + b.toNat * 2 ^ 16 ∧
    (encode (.pdbl d a)).toNat = 0x28 + d.toNat * 2 ^ 8 + a.toNat * 2 ^ 12 ∧
    (encode (.pmul d a b)).toNat = 0x29 + d.toNat * 2 ^ 8 + a.toNat * 2 ^ 12 + b.toNat * 2 ^ 16 ∧
    (encode (.pchk a)).toNat = 0x2A + a.toNat * 2 ^ 12 ∧
    (encode (.pstore a)).toNat = 0x2B + a.toNat * 2 ^ 12 ∧
    (encode (.pload d)).toNat = 0x2C + d.toNat * 2 ^ 8 ∧
    (encode .hinit).toNat = 0x30 ∧ (encode .hcomp).toNat = 0x31 ∧ (encode .hash).toNat = 0x32 ∧
    (encode .kdf).toNat = 0x40) ∧
  encode (.madd 2 0 1) = 0x00010210 ∧ encode (.pmul 1 3 0) = 0x00003129

/-- Words written out bit by bit from R90 and R94 (and the vectors EN-2 to EN-5, EN-8 of 95_test_vectors.md), one of each
family, decode to their commands; two that are not legal do not. A sanity statement. -/
def Obligations.WrittenWordsDecode : Prop :=
  decode 0b00000000000000010001001100010010#32 = .ok (.mmul 3 1 1) ∧
  decode 0b00000000000000000001010100000001#32 = .ok (.fldc 5 1) ∧
  decode 0b00000000000001110110000100100011#32 = .ok (.pset 1 6 7) ∧
  decode 0b00000000000000000011000100101001#32 = .ok (.pmul 1 3 0) ∧
  decode 0b00000000000000000010000000101011#32 = .ok (.pstore 2) ∧
  decode 0b00000000000000000000000000110010#32 = .ok .hash ∧
  decode 0b00000000000000000000000001000000#32 = .ok .kdf ∧
  decode 0b00000000000000000110000000000001#32 = .error .badRA ∧
  decode 0b00000000000000000000010000100000#32 = .error .badRD

/-! ### The life of a command (60_exceptions.md) -/

/-- R211: the engine's turn while Busy(c) is the execution of the command c stands for, on the state it finds; with
nothing scheduled the engine has the turn (assumption log 1). -/
def Obligations.EngineTurnRunsTheDecodedCommand : Prop :=
  ∀ (s : State) (c : Word) (i : Instr) (rest : List Event),
    s.engine = .busy c → s.inReset = false → decode c = .ok i →
      step { s with events := .engineTurn :: rest } = exec i { s with events := rest } ∧
      step { s with events := [] } = exec i { s with events := [] }

/-- R96: a word that is not legal is accepted like any command and completes with CmdError(ILLEGAL), changing no state
but STATUS and CMD, whatever else is wrong with it. -/
def Obligations.IllegalWordCompletesWithIllegal : Prop :=
  ∀ (s : State) (c : Word) (rest : List Event),
    s.engine = .idle → s.inReset = false → ¬ LegalWord c.toNat →
      ∃ t, step { s with events := .hostWrite 0x010 .w32 c :: .engineTurn :: rest } = .next t ∧
        t.engine = .busy c ∧ t.cmd = c ∧
        step t = .next { s with
          events := rest, cmd := c,
          status := { s.status with done := true, err := true, errcode := some .illegal } }

/-- R210: a host write of any word to CMD while the engine is Idle is accepted, legal or not, and changes CMD, the
engine (and so BUSY) and DONE only. -/
def Obligations.EveryCommandWordIsAccepted : Prop :=
  ∀ (s : State) (c : Word) (rest : List Event), s.engine = .idle → s.inReset = false →
    ∃ t, step { s with events := .hostWrite 0x010 .w32 c :: rest } = .next t ∧
      t = { s with events := rest, cmd := c, engine := .busy c, status := { s.status with done := false } } ∧
      t.busyBit = true

/-- R211, R214: every command completes, in one of two ways. It succeeds: Idle, DONE set, ERR and ERRCODE as they were.
Or it fails with one code and writes the completion fields only. -/
def Obligations.CommandSucceedsOrFailsPrecisely : Prop :=
  ∀ (i : Instr) (s : State), ∃ t, exec i s = .next t ∧
    ((t.engine = .idle ∧ t.status.done = true ∧ t.status.err = s.status.err ∧ t.status.errcode = s.status.errcode ∧
        t.status.ovr = s.status.ovr ∧ t.status.berr = s.status.berr) ∨
     ∃ code, t = failed code s)

/-- R96, R213: ILLEGAL first; then, for KDF, KDF_OVF; then, for PSTORE, INF_ENCODE; then RANGE, of the source or the
destination. The first clause speaks of commands as syntax, with an operand outside its class: the decoder gives no such
command, and that `exec` completes it with ILLEGAL, as the engine does its word, is the model's reading (log 13). -/
def Obligations.ErrorsComeInPriorityOrder : Prop :=
  (∀ (i : Instr) (s : State), i.wf = false → exec i s = .next (failed .illegal s)) ∧
  (∀ s : State, (2 ^ 32 - 1) * 256 ≤ s.klen → exec .kdf s = .next (failed .kdfOvf s)) ∧
  (∀ s : State, s.klen < (2 ^ 32 - 1) * 256 →
    s.dbuf.size < s.src.toNat + s.len.toNat ∨ s.dbuf.size < s.dst.toNat + (s.klen + 7) / 8 →
      exec .kdf s = .next (failed .range s)) ∧
  (∀ (s : State) (a : Fin 4), s.p[a].inf = true → exec (.pstore (reg a)) s = .next (failed .infEncode s)) ∧
  (∀ (s : State) (a : Fin 4), s.p[a].inf = false → s.dbuf.size < s.dst.toNat + 64 →
    exec (.pstore (reg a)) s = .next (failed .range s)) ∧
  (∀ (s : State) (d : Fin 4), s.dbuf.size < s.src.toNat + 64 → exec (.pload (reg d)) s = .next (failed .range s)) ∧
  (∀ s : State, s.dbuf.size < s.src.toNat + s.len.toNat ∨ s.dbuf.size < s.dst.toNat + 32 →
    exec .hash s = .next (failed .range s))

/-- R221: the core takes no traps: whatever the state and whoever has the turn, a step has a next state. That an idle
engine's turn, with nothing scheduled too, and a turn under hard reset are steps that change nothing is the model's
choice, not the spec's (log 1, log 8). -/
def Obligations.EveryStepHasANextState : Prop := ∀ s : State, s.stepSafe

/-- R44: the invariant holds right after reset. Its clause on draws rests there on the model's own numbers (log 3), and
the form of DBUF on the default size that the model's reset state carries (log 6). -/
def Obligations.ResetStateMeetsTheInvariant : Prop := State.reset.Inv

/-- Every step keeps the invariant: the form of DBUF inside its size, CMD = c and DONE = 0 while Busy(c), ERRCODE = NONE
exactly while ERR = 0 (R61, R210, R212, R214; the clause on draws is the model's own, log 3). -/
def Obligations.EveryStepKeepsTheInvariant : Prop :=
  ∀ s t : State, s.Inv → step s = .next t → t.Inv

/-! ### What commands leave alone -/

/-- R28: T is the membership result of the last successful PCHK; no other command and no failing PCHK writes it. -/
def Obligations.FlagTIsWrittenByPchkOnly : Prop :=
  ∀ (i : Instr) (s t : State), exec i s = .next t →
    (∃ a : Fin 4, i = .pchk (reg a) ∧ t.status.t = (canonOf s.p[a]).onCurve) ∨
    (∀ a : Fin 4, i ≠ .pchk (reg a)) ∧ t.status.t = s.status.t

/-- R29: ZF is the all-zero result of the last successful KDF; no other command and no failing KDF writes it. -/
def Obligations.FlagZfIsWrittenByKdfOnly : Prop :=
  ∀ (i : Instr) (s t : State), exec i s = .next t →
    if i = .kdf ∧ s.klen < (2 ^ 32 - 1) * 256 ∧ s.src.toNat + s.len.toNat ≤ s.dbuf.size ∧
        s.dst.toNat + (s.klen + 7) / 8 ≤ s.dbuf.size then
      (t.status.zf = true ↔ ∀ x ∈ Kdf.output (s.memRead s.src.toNat s.len.toNat) s.klen, x = 0#8)
    else t.status.zf = s.status.zf

/-- R31, R32, R39, R80 ("No command writes"), and R24, R216, R217 by what they name as writers: CTRL, CMD, SRC, DST, LEN,
KLEN, B, OVR, BERR and the size of DBUF are the same after every command; only KDF writes CT, and only HINIT, HCOMP and
HASH write V. -/
def Obligations.CommandsLeaveOperandRegistersAlone : Prop :=
  ∀ (i : Instr) (s t : State), exec i s = .next t →
    t.ie = s.ie ∧ t.cmd = s.cmd ∧ t.src = s.src ∧ t.dst = s.dst ∧ t.len = s.len ∧ t.klenLo = s.klenLo ∧
    t.klenHi = s.klenHi ∧ t.b = s.b ∧ t.dbuf.size = s.dbuf.size ∧ t.status.ovr = s.status.ovr ∧
    t.status.berr = s.status.berr ∧ t.inReset = s.inReset ∧ t.events = s.events ∧
    (i ≠ .kdf → t.ct = s.ct) ∧ (i ≠ .hinit → i ≠ .hcomp → i ≠ .hash → t.v = s.v)

/-- R66: PSTORE stores 64 bytes, HASH 32 and KDF ⌈klen/8⌉ bytes from DST on; every other DBUF byte, and every byte after
any other command, reads as before. -/
def Obligations.CommandsStoreOnlyFromDstOn : Prop :=
  ∀ (i : Instr) (s t : State) (o : Nat), exec i s = .next t →
    ¬ ((∃ a, i = .pstore a) ∧ s.dst.toNat ≤ o ∧ o < s.dst.toNat + 64) →
    ¬ (i = .hash ∧ s.dst.toNat ≤ o ∧ o < s.dst.toNat + 32) →
    ¬ (i = .kdf ∧ s.dst.toNat ≤ o ∧ o < s.dst.toNat + (s.klen + 7) / 8) →
      t.dbuf.read o = s.dbuf.read o

/-! ### Host transfers (20_memory.md) -/

/-- R71: an access that is not legal, busy or not, sets BERR and does nothing else; a read returns 0. -/
def Obligations.IllegalAccessIsABusError : Prop :=
  ∀ (s : State) (off : BitVec 16) (w : Width) (v : Word) (rest : List Event),
    s.inReset = false → ¬ LegalAccess s.dbuf.size off w →
      step { s with events := .hostRead off w :: rest } =
        .next { s with events := rest, rdata := 0, status := { s.status with berr := true } } ∧
      step { s with events := .hostWrite off w v :: rest } =
        .next { s with events := rest, status := { s.status with berr := true } }

/-- R72: a legal read, busy or not, changes no state of the machine (the value returned and the count of free values
drawn are the model's own fields, log 2 and 3). -/
def Obligations.ReadsHaveNoSideEffects : Prop :=
  ∀ (s : State) (off : BitVec 16) (w : Width) (rest : List Event),
    LegalAccess s.dbuf.size off w →
      ∃ value drawn, step { s with events := .hostRead off w :: rest } =
        .next { s with events := rest, rdata := value, draws := drawn }

/-- R72: writing back the value just read changes nothing, except at CMD, STATUS and (with SRST set, which reads 0, so
never) CTRL: every register is the same and every DBUF byte reads the same. -/
def Obligations.WritingBackWhatWasReadChangesNothing : Prop :=
  ∀ (s : State) (off : BitVec 16) (w : Width),
    s.engine = .idle → s.inReset = false → LegalAccess s.dbuf.size off w → off ≠ 0x010 → off ≠ 0x00C →
      hostWrite off w (hostRead off w s).1 s = { s with dbuf := (hostWrite off w (hostRead off w s).1 s).dbuf } ∧
      ∀ o, (hostWrite off w (hostRead off w s).1 s).dbuf.read o = s.dbuf.read o

/-- R21, R35, R37: a word written to a register that stores it whole reads back unchanged, and no other legal access of
any width reads anything else than before. R22, R23, R33: a write of any value to ID, VERSION or CT is ignored. -/
def Obligations.WrittenRegisterReadsBack : Prop :=
  ∀ (s : State) (v : Word), s.engine = .idle → s.inReset = false →
    (∀ off : BitVec 16, StoredWhole off.toNat →
      (hostRead off .w32 (hostWrite off .w32 v s)).1 = v ∧
      ∀ (off' : BitVec 16) (w : Width), off' ≠ off → LegalAccess s.dbuf.size off' w →
        (hostRead off' w (hostWrite off .w32 v s)).1 = (hostRead off' w s).1) ∧
    hostWrite 0x000 .w32 v s = s ∧ hostWrite 0x004 .w32 v s = s ∧ hostWrite 0x028 .w32 v s = s

/-- R21 with R9, R22, R23, R30 to R39: what a read of each mapped offset returns (CTRL, STATUS and PINF have a statement
of their own). ID, VERSION and CMD, the last accepted word, are read truly in every state, while the engine is busy too
(R30, R70); the others while it is Idle. -/
def Obligations.RegisterPageShowsTheRegisters : Prop :=
  ∀ s : State, s.inReset = false →
    let rd := fun o : Nat => (hostRead (BitVec.ofNat 16 o) .w32 s).1
    rd 0x000 = 0x534D3233 ∧ rd 0x004 = 0x00000007 ∧ rd 0x010 = s.cmd ∧
    (s.engine = .idle →
      rd 0x014 = s.src ∧ rd 0x018 = s.dst ∧
      rd 0x01C = s.len ∧ rd 0x020 = s.klenLo ∧ rd 0x024 = s.klenHi ∧ rd 0x028 = s.ct ∧
      (∀ i j : Fin 8, rd (0x100 + 32 * i + 4 * j) = s.f[i].extractLsb' (224 - 32 * j) 32) ∧
      (∀ (i : Fin 4) (j : Fin 8), rd (0x200 + 64 * i + 4 * j) = s.p[i].x.extractLsb' (224 - 32 * j) 32) ∧
      (∀ (i : Fin 4) (j : Fin 8), rd (0x220 + 64 * i + 4 * j) = s.p[i].y.extractLsb' (224 - 32 * j) 32) ∧
      (∀ k : Fin 8, rd (0x300 + 4 * k) = s.v[k]) ∧
      (∀ k : Fin 16, rd (0x340 + 4 * k) = s.b[k]))

/-- R24, R26, R34, R212: the bits of CTRL, STATUS and PINF as the host reads them. CTRL and STATUS are read truly in every
state (R70), BUSY being 1 exactly while the engine is Busy (R41); PINF while it is Idle. -/
def Obligations.StatusWordsHaveTheirBits : Prop :=
  ∀ s : State, s.inReset = false →
    let rd := fun o : Nat => (hostRead (BitVec.ofNat 16 o) .w32 s).1
    (rd 0x008).toNat = s.ie.toNat ∧
    (rd 0x00C).toNat =
      (if s.engine = .idle then 0 else 1) + 2 * s.status.done.toNat + 4 * s.status.err.toNat + 8 * s.status.ovr.toNat +
      16 * s.status.berr.toNat + 32 * s.status.t.toNat + 64 * s.status.zf.toNat +
      256 * (match s.status.errcode with
        | none => 0
        | some .illegal => 1
        | some .range => 2
        | some .kdfOvf => 3
        | some .infEncode => 4) ∧
    (s.engine = .idle →
      (rd 0x02C).toNat = s.p[0].inf.toNat + 2 * s.p[1].inf.toNat + 4 * s.p[2].inf.toNat + 8 * s.p[3].inf.toNat)

/-- R63 with R69, R70: a 32-bit read of DBUF is the big-endian number of its four bytes, a 32-bit write stores them in
that order, an 8-bit transfer reads and writes one byte at any offset; every other byte and every register stays. That
the byte of an 8-bit transfer stands in bits 7:0 of the value read or written, zeros above it in the value read, is the
model's reading (log 9). -/
def Obligations.DbufLanesAreBigEndian : Prop :=
  ∀ (s : State) (off : BitVec 16) (v : Word) (o : Nat),
    s.engine = .idle → s.inReset = false → off.toNat = 0x1000 + o → o < s.dbuf.size →
      (o % 4 = 0 → o + 4 ≤ s.dbuf.size →
        (hostRead off .w32 s).1.toNat = (s.dbuf.read o).toNat * 2 ^ 24 + (s.dbuf.read (o + 1)).toNat * 2 ^ 16 +
          (s.dbuf.read (o + 2)).toNat * 2 ^ 8 + (s.dbuf.read (o + 3)).toNat ∧
        hostWrite off .w32 v s = { s with dbuf := (hostWrite off .w32 v s).dbuf } ∧
        (∀ i < 4, (hostWrite off .w32 v s).dbuf.read (o + i) = v.extractLsb' (24 - 8 * i) 8) ∧
        ∀ a, a < o ∨ o + 4 ≤ a → (hostWrite off .w32 v s).dbuf.read a = s.dbuf.read a) ∧
      (hostRead off .w8 s).1.toNat = (s.dbuf.read o).toNat ∧
      hostWrite off .w8 v s = { s with dbuf := (hostWrite off .w8 v s).dbuf } ∧
      ∀ a, (hostWrite off .w8 v s).dbuf.read a = if a = o then BitVec.ofNat 8 v.toNat else s.dbuf.read a

/-- R34, R37: a write of PINF sets the four tags to bits 3:0 and leaves the coordinates and all else alone. -/
def Obligations.PinfWriteSetsTheTags : Prop :=
  ∀ (s : State) (v : Word), s.engine = .idle → s.inReset = false →
    hostWrite 0x02C .w32 v s = { s with p := (hostWrite 0x02C .w32 v s).p } ∧
    ∀ i : Fin 4, (hostWrite 0x02C .w32 v s).p[i] = { s.p[i] with inf := v.getLsbD i }

/-- R27: a write of v to STATUS, busy or not, clears DONE, ERR with ERRCODE, OVR and BERR where v has a 1 and nothing
else. -/
def Obligations.StatusWriteClearsItsBits : Prop :=
  ∀ (s : State) (v : Word) (rest : List Event), s.inReset = false →
    step { s with events := .hostWrite 0x00C .w32 v :: rest } = .next { s with
      events := rest
      status :=
        { s.status with
          done := if v.getLsbD 1 then false else s.status.done
          err := if v.getLsbD 2 then false else s.status.err
          errcode := if v.getLsbD 2 then none else s.status.errcode
          ovr := if v.getLsbD 3 then false else s.status.ovr
          berr := if v.getLsbD 4 then false else s.status.berr } }

/-- R24, R25: a write to CTRL without SRST, busy or not, sets IE to bit 0 and changes nothing else. -/
def Obligations.ControlWriteSetsInterruptEnable : Prop :=
  ∀ (s : State) (v : Word) (rest : List Event), s.inReset = false → v.getLsbD 1 = false →
    step { s with events := .hostWrite 0x008 .w32 v :: rest } = .next { s with events := rest, ie := v.getLsbD 0 }

/-- R216, R70: while the engine is busy a legal write to any offset but CTRL and STATUS is dropped and sets OVR only, CMD
included; a legal read of any offset but ID, VERSION, CTRL, STATUS and CMD returns some value and changes no state of the
machine. The field `rdata` the value stands in and the count `draws` of free values, which grows by one, are the model's
own (log 2, log 3). -/
def Obligations.BusyEngineDropsWrites : Prop :=
  ∀ (s : State) (c : Word) (off : BitVec 16) (w : Width) (v : Word) (rest : List Event),
    s.engine = .busy c → s.inReset = false → LegalAccess s.dbuf.size off w →
      (off ≠ 0x008 → off ≠ 0x00C →
        step { s with events := .hostWrite off w v :: rest } =
          .next { s with events := rest, status := { s.status with ovr := true } }) ∧
      (off ≠ 0x000 → off ≠ 0x004 → off ≠ 0x008 → off ≠ 0x00C → off ≠ 0x010 →
        ∃ value, step { s with events := .hostRead off w :: rest } =
          .next { s with events := rest, rdata := value, draws := s.draws + 1 })

/-- R218: IRQ is the level DONE AND IE. It rises at a completion when IE = 1 and when the host sets IE while DONE = 1; it
falls when the host clears DONE or IE, at an acceptance and at a reset. -/
def Obligations.InterruptIsDoneAndEnabled : Prop :=
  (∀ s : State, s.irq = true ↔ s.status.done = true ∧ s.ie = true) ∧
  (∀ (i : Instr) (s t : State), exec i s = .next t → t.irq = s.ie) ∧
  (∀ (s : State) (v : Word), s.inReset = false →
    (v.getLsbD 1 = false → (hostWrite 0x008 .w32 v s).irq = (s.status.done && v.getLsbD 0)) ∧
    (v.getLsbD 1 = true → (hostWrite 0x008 .w32 v s).irq = false) ∧
    (v.getLsbD 1 = true → (hostWrite 0x00C .w32 v s).irq = false) ∧
    (v.getLsbD 1 = false → (hostWrite 0x00C .w32 v s).irq = s.irq) ∧
    (s.engine = .idle → (hostWrite 0x010 .w32 v s).irq = false)) ∧
  (∀ (s : State) (rest : List Event), s.inReset = true →
    ∃ t, step { s with events := .resetReleased :: rest } = .next t ∧ t.irq = false)

/-! ### Reset (70_reset_and_hazards.md, 10_state.md R44) -/

/-- R44: the values the spec gives for a hard reset (the model's own fields and the size of DBUF, log 1, 2, 3 and 6, left
out). -/
def Obligations.ResetValuesAreTheSpecs : Prop :=
  State.reset = withResetValues State.reset ∧ State.reset.inReset = false ∧ State.reset.irq = false ∧
  State.reset.dbuf.cells = [] ∧ State.reset.statusWord = 0 ∧ State.reset.ctrlWord = 0 ∧ State.reset.pinfWord = 0xF

/-- R241, R242, R66: a write to CTRL with SRST = 1, busy or not, sets every register to its reset value in one step,
abandons the running command and keeps every DBUF byte; while Busy(c), every byte that c was not due to write. Which bytes
those are (`DueByte`: only where all range checks of c would pass, that of its source too, and whether or not the point of
a PSTORE is Infinity) is the model's reading of R242 (log 7). Nothing is said of the bytes it was due to write: they are
free values (log 3, log 7). -/
def Obligations.SoftResetRestoresEveryRegister : Prop :=
  ∀ (s : State) (v : Word) (rest : List Event), s.inReset = false → v.getLsbD 1 = true →
    ∃ t, step { s with events := .hostWrite 0x008 .w32 v :: rest } = .next t ∧
      t = { withResetValues s with events := rest, dbuf := t.dbuf, draws := t.draws } ∧
      t.dbuf.size = s.dbuf.size ∧ t.statusWord = 0 ∧
      (s.engine = .idle → t.dbuf = s.dbuf) ∧
      ∀ c o, s.engine = .busy c → ¬ DueByte s c o → t.dbuf.read o = s.dbuf.read o

/-- R240: under hard reset a host write has no effect and a host read changes nothing; its release sets every register to
its reset value, with the engine Idle. Nothing is said of DBUF but its size. (That registers keep their values until the
release is the model's choice, log 8.) -/
def Obligations.HardResetRestoresEveryRegister : Prop :=
  ∀ (s : State) (off : BitVec 16) (w : Width) (v : Word) (rest : List Event), s.inReset = true →
    step { s with events := .hostWrite off w v :: rest } = .next { s with events := rest } ∧
    (∃ value drawn, step { s with events := .hostRead off w :: rest } =
      .next { s with events := rest, rdata := value, draws := drawn }) ∧
    ∃ t, step { s with events := .resetReleased :: rest } = .next t ∧
      t = { withResetValues s with events := rest, inReset := false, dbuf := t.dbuf, draws := t.draws } ∧
      t.dbuf.size = s.dbuf.size

/-! ### General and field commands (40_field.md) -/

/-- R112, R113, R114: NOP only completes; FLDC loads the ROM constant of the selector and FMOV copies, both without
reduction. -/
def Obligations.GeneralCommandsCopyVerbatim : Prop :=
  (∀ s : State, exec .nop s = .next (succeeded s)) ∧
  (∀ (s : State) (d : Fin 8) (c : Fin 6), WritesF (.fldc (reg d) (reg c)) s d constants[c]) ∧
  (∀ (s : State) (d a : Fin 8), WritesF (.fmov (reg d) (reg a)) s d s.f[a])

/-- R115: MADD writes the exact sum reduced mod p, for every u256 operands and registers, equal ones too. -/
def Obligations.MaddReducesTheExactSum : Prop :=
  ∀ (s : State) (d a b : Fin 8), ∃ r : U256,
    r.toNat = (s.f[a].toNat + s.f[b].toNat) % Rom.p ∧ WritesF (.madd (reg d) (reg a) (reg b)) s d r

/-- R116: MSUB writes the non-negative remainder of the exact difference. -/
def Obligations.MsubReducesTheExactDifference : Prop :=
  ∀ (s : State) (d a b : Fin 8), ∃ r : U256,
    (r.toNat : Int) = ((s.f[a].toNat : Int) - (s.f[b].toNat : Int)) % (Rom.p : Int) ∧
      WritesF (.msub (reg d) (reg a) (reg b)) s d r

/-- R117: MMUL writes the exact 512-bit product reduced mod p. -/
def Obligations.MmulReducesTheExactProduct : Prop :=
  ∀ (s : State) (d a b : Fin 8), ∃ r : U256,
    r.toNat = s.f[a].toNat * s.f[b].toNat % Rom.p ∧ WritesF (.mmul (reg d) (reg a) (reg b)) s d r

/-- R111, R118: MINV writes x^(p-2) mod p, and so 0 for x ≡ 0 and 1 for x ≡ 1; there is no error. -/
def Obligations.MinvIsTheFermatPower : Prop :=
  ∀ (s : State) (d a : Fin 8), ∃ r : U256,
    r.toNat = s.f[a].toNat ^ (Rom.p - 2) % Rom.p ∧
    (s.f[a].toNat % Rom.p = 0 → r = 0) ∧ (s.f[a].toNat % Rom.p = 1 → r = 1) ∧
    WritesF (.minv (reg d) (reg a)) s d r

/-- R119: a field command writes F and the completion fields only, reads no DBUF byte, and its only error is ILLEGAL. -/
def Obligations.FieldCommandsTouchFieldRegistersOnly : Prop :=
  ∀ (i : Instr) (s : State), isFieldCommand i = true →
    ∃ t, exec i s = .next t ∧ (t = { succeeded s with f := t.f } ∨ t = failed .illegal s) ∧
      ∀ m : Memory, exec i { s with dbuf := m } = .next { t with dbuf := m }

/-! ### Point commands (41_curve.md) -/

/-- R139 to R142: PLDG loads G, PSETINF Infinity as (1, 0, 0), PMOV copies the triple bit for bit, PSET builds a finite
point of two field registers without reduction. -/
def Obligations.PointMovesCopyVerbatim : Prop :=
  (∀ (s : State) (d : Fin 4), WritesP (.pldg (reg d)) s d ⟨false, constants[4], constants[5]⟩) ∧
  (∀ (s : State) (d : Fin 4), WritesP (.psetinf (reg d)) s d ⟨true, 0, 0⟩) ∧
  (∀ (s : State) (d a : Fin 4), WritesP (.pmov (reg d) (reg a)) s d s.p[a]) ∧
  (∀ (s : State) (d : Fin 4) (a b : Fin 8), WritesP (.pset (reg d) (reg a) (reg b)) s d ⟨false, s.f[a], s.f[b]⟩)

/-- R143, R144: FGETX and FGETY copy the stored coordinate, of an Infinity too. -/
def Obligations.CoordinateReadsCopyVerbatim : Prop :=
  ∀ (s : State) (d : Fin 8) (a : Fin 4),
    WritesF (.fgetx (reg d) (reg a)) s d s.p[a].x ∧ WritesF (.fgety (reg d) (reg a)) s d s.p[a].y

/-- R136, R145: PNEG writes Infinity for Infinity, else (X mod p, (p - Y mod p) mod p). -/
def Obligations.PnegNegatesTheCanonicalPoint : Prop :=
  ∀ (s : State) (d a : Fin 4),
    (s.p[a].inf = true → WritesP (.pneg (reg d) (reg a)) s d ⟨true, 0, 0⟩) ∧
    (s.p[a].inf = false → ∃ x y : U256, x.toNat = s.p[a].x.toNat % Rom.p ∧
      y.toNat = (Rom.p - s.p[a].y.toNat % Rom.p) % Rom.p ∧ WritesP (.pneg (reg d) (reg a)) s d ⟨false, x, y⟩)

/-- R133: the addition of point values, its identity and cancellation cases, both slopes with the inverse as the Fermat
power, the third point, and that it is reduced when the operands are. -/
def Obligations.AdditionFollowsChordAndTangent : Prop :=
  (∀ q : Point, Point.add .infinity q = q ∧ Point.add q .infinity = q) ∧
  (∀ x1 y1 x2 y2 : U256,
    (x1 = x2 → y1 ≠ y2 → Point.add (.finite x1 y1) (.finite x2 y2) = .infinity) ∧
    ∀ l : Nat,
      (x1 = x2 ∧ y1 = y2 ∧
        (l : Int) = (3 * (x1.toNat : Int) ^ 2 + (Rom.a : Int)) * inverse (2 * (y1.toNat : Int)) % (Rom.p : Int) ∨
       x1 ≠ x2 ∧
        (l : Int) = ((y2.toNat : Int) - (y1.toNat : Int)) * inverse ((x2.toNat : Int) - (x1.toNat : Int)) %
          (Rom.p : Int)) →
      ∃ x3 y3 : U256, Point.add (.finite x1 y1) (.finite x2 y2) = .finite x3 y3 ∧
        (x3.toNat : Int) = ((l : Int) ^ 2 - (x1.toNat : Int) - (x2.toNat : Int)) % (Rom.p : Int) ∧
        (y3.toNat : Int) = ((l : Int) * ((x1.toNat : Int) - (x3.toNat : Int)) - (y1.toNat : Int)) % (Rom.p : Int)) ∧
  (∀ q r : Point, Reduced q → Reduced r → Reduced (q.add r))

/-- R134: doubling is addition to itself; Infinity for Infinity, and (-2x mod p, 0) for y = 0, as in the example. -/
def Obligations.DoublingIsAdditionToItself : Prop :=
  (∀ q : Point, q.double = q.add q) ∧ Point.double .infinity = .infinity ∧
  (∀ x : U256, x.toNat < Rom.p → ∃ x3 : U256, Point.double (.finite x 0) = .finite x3 0 ∧
    (x3.toNat : Int) = (-2 * (x.toNat : Int)) % (Rom.p : Int)) ∧
  Point.double (.finite 5 0) =
    .finite 0xFFFFFFFEFFFFFFFFFFFFFFFFFFFFFFFFFFFFFFFF00000000FFFFFFFFFFFFFFF5 0

/-- R135: scalar multiplication is right-to-left double-and-add over the 256 bits; stopping after `m` bits gives the same
for a scalar below 2^m; 0·P and k·Infinity are Infinity, 1·P is P; the result is reduced when P is. -/
def Obligations.ScalarMultiplicationIsDoubleAndAdd : Prop :=
  (∀ (k : U256) (q : Point) (m : Nat), m ≤ 256 → k.toNat < 2 ^ m →
    Point.smul k q =
      ((List.range m).foldl
        (fun (ra : Point × Point) i => (if k.getLsbD i then ra.1.add ra.2 else ra.1, ra.2.add ra.2)) (.infinity, q)).1) ∧
  (∀ q : Point, Point.smul 0 q = .infinity ∧ Point.smul 1 q = q) ∧
  (∀ k : U256, Point.smul k .infinity = .infinity) ∧
  (∀ (k : U256) (q : Point), Reduced q → Reduced (Point.smul k q))

/-- R132, R146, R147, R148: PADD, PDBL and PMUL write the sum, the double and the scalar multiple of their operands read
canonically, equal registers included; PDBL does what PADD does with equal operands (90_conflicts.md C10). -/
def Obligations.PointArithmeticWritesItsFunction : Prop :=
  ∀ (s : State) (d a b : Fin 4) (k : Fin 8),
    WritesP (.padd (reg d) (reg a) (reg b)) s d (tripleOf ((canonOf s.p[a]).add (canonOf s.p[b]))) ∧
    WritesP (.pdbl (reg d) (reg a)) s d (tripleOf (canonOf s.p[a]).double) ∧
    WritesP (.pmul (reg d) (reg k) (reg b)) s d (tripleOf (Point.smul s.f[k] (canonOf s.p[b]))) ∧
    exec (.pdbl (reg d) (reg a)) s = exec (.padd (reg d) (reg a) (reg a)) s

/-- R152: a point and its negation cancel, for every reduced point with y ≠ 0 (no point of the curve has y = 0, R131). -/
def Obligations.NegatedPointCancels : Prop :=
  ∀ x y : U256, x.toNat < Rom.p → y.toNat < Rom.p → y ≠ 0 →
    Point.add (.finite x y) (Point.negate (.finite x y)) = .infinity

/-- R137, R149: PCHK sets T when the point is finite and its stored coordinates, reduced or not, satisfy the curve
equation mod p; else T is 0. It writes nothing else. -/
def Obligations.PchkTestsTheCurveEquation : Prop :=
  ∀ (s : State) (a : Fin 4), ∃ t, exec (.pchk (reg a)) s = .next t ∧
    t = { succeeded s with status := { (succeeded s).status with t := t.status.t } } ∧
    (t.status.t = true ↔ s.p[a].inf = false ∧
      (Rom.p : Int) ∣ (s.p[a].y.toNat : Int) ^ 2 -
        ((s.p[a].x.toNat : Int) ^ 3 + (Rom.a : Int) * (s.p[a].x.toNat : Int) + (Rom.b : Int)))

/-- R138, R150: PSTORE of a finite point whose 64 bytes fit stores X then Y big-endian from DST on, not reduced, and
changes nothing else. -/
def Obligations.PstoreWritesTheEncodedPoint : Prop :=
  ∀ (s : State) (a : Fin 4), s.p[a].inf = false → s.dst.toNat + 64 ≤ s.dbuf.size →
    ∃ t, exec (.pstore (reg a)) s = .next t ∧ t = { succeeded s with dbuf := t.dbuf } ∧
      (∀ i < 32, t.dbuf.read (s.dst.toNat + i) = byteOf s.p[a].x i) ∧
      (∀ i < 32, t.dbuf.read (s.dst.toNat + 32 + i) = byteOf s.p[a].y i) ∧
      (∀ o, o < s.dst.toNat ∨ s.dst.toNat + 64 ≤ o → t.dbuf.read o = s.dbuf.read o) ∧
      t.dbuf.size = s.dbuf.size

/-- R138, R151: PLOAD of 64 bytes that lie in DBUF writes the finite point they encode, not reduced and not checked. -/
def Obligations.PloadReadsTheEncodedPoint : Prop :=
  ∀ (s : State) (d : Fin 4), s.src.toNat + 64 ≤ s.dbuf.size →
    ∃ x y : U256, WritesP (.pload (reg d)) s d ⟨false, x, y⟩ ∧
      (∀ i < 32, byteOf x i = s.dbuf.read (s.src.toNat + i)) ∧
      (∀ i < 32, byteOf y i = s.dbuf.read (s.src.toNat + 32 + i))

/-- R138, D22: a finite point stored by PSTORE and loaded by PLOAD from there is the same triple, bit for bit. -/
def Obligations.StoredPointLoadsBack : Prop :=
  ∀ (s t : State) (a d : Fin 4), s.p[a].inf = false → s.dst.toNat + 64 ≤ s.dbuf.size →
    exec (.pstore (reg a)) s = .next t →
      ∃ u, exec (.pload (reg d)) { t with src := s.dst } = .next u ∧ u.p[d] = s.p[a]

/-! ### SM3 (42_sm3.md) -/

/-- R176, R177: the compression function follows the message expansion and the 64 rounds. -/
def Obligations.CompressionFollowsTheRounds : Prop :=
  ∀ (v : Vector Word 8) (block : Vector Word 16), CompressesTo v block (Sm3.compress v block.toList)

/-- R174: the padding is m ∥ 0x80 ∥ k zero bytes ∥ the bit length in 8 bytes, k the least with (len + 1 + k) mod 64 = 56,
its length is a multiple of 64, and its three corner cases. -/
def Obligations.PaddingIsTheLeast : Prop :=
  ∀ m : List Byte, ∃ k : Nat,
    Sm3.pad m = m ++ [0x80#8] ++ List.replicate k 0#8 ++ beBytes 8 (8 * m.length) ∧
    (m.length + 1 + k) % 64 = 56 ∧ (∀ k' < k, (m.length + 1 + k') % 64 ≠ 56) ∧ (Sm3.pad m).length % 64 = 0 ∧
    (m.length = 55 → (Sm3.pad m).length = 64) ∧ (m.length = 56 → (Sm3.pad m).length = 128) ∧
    (m.length = 0 → Sm3.pad m = 0x80#8 :: List.replicate 63 0#8)

/-- R179 with R170, R175, R178: the hash is the digest of the last of N + 1 running states, the first the IV, each next
one the compression of the one before with the sixteen big-endian words of the next block of the padded message. -/
def Obligations.HashChainsTheBlocks : Prop :=
  ∀ m : List Byte, ∃ v : Nat → Vector Word 8,
    v 0 = #v[0x7380166F, 0x4914B2B9, 0x172442D7, 0xDA8A0600, 0xA96F30BC, 0x163138AA, 0xE38DEE4D, 0xB0FB0E4E] ∧
    (∀ i < (Sm3.pad m).length / 64, ∃ block : Vector Word 16,
      (∀ k : Fin 16, block[k].toNat = intBe (((Sm3.pad m).drop (64 * i + 4 * k)).take 4)) ∧
      v (i + 1) = Sm3.compress (v i) block.toList) ∧
    (Sm3.hash m).length = 32 ∧
    ∀ k : Fin 8, intBe (((Sm3.hash m).drop (4 * k)).take 4) = (v ((Sm3.pad m).length / 64))[k].toNat

/-- R180, R181: HINIT sets V to the IV, HCOMP to the compression of V and B; neither changes anything else. -/
def Obligations.HinitAndHcompUpdateTheRunningState : Prop :=
  ∀ s : State,
    exec .hinit s = .next { succeeded s with
      v := #v[0x7380166F, 0x4914B2B9, 0x172442D7, 0xDA8A0600, 0xA96F30BC, 0x163138AA, 0xE38DEE4D, 0xB0FB0E4E] } ∧
    ∃ v', CompressesTo s.v s.b v' ∧ exec .hcomp s = .next { succeeded s with v := v' }

/-- R182: HASH of a source and destination inside DBUF writes the digest of the source bytes as they were, overlapping or
not, to DBUF from DST on and to V word by word, and changes nothing else. -/
def Obligations.HashWritesTheDigest : Prop :=
  ∀ s : State, s.src.toNat + s.len.toNat ≤ s.dbuf.size → s.dst.toNat + 32 ≤ s.dbuf.size →
    ∃ t, exec .hash s = .next t ∧ t = { succeeded s with v := t.v, dbuf := t.dbuf } ∧
      (∀ i < 32, t.dbuf.read (s.dst.toNat + i) =
        (Sm3.hash ((List.range s.len.toNat).map fun j => s.dbuf.read (s.src.toNat + j))).getD i 0) ∧
      (∀ k : Fin 8, t.v[k].toNat = intBe (((Sm3.hash ((List.range s.len.toNat).map fun j =>
        s.dbuf.read (s.src.toNat + j))).drop (4 * k)).take 4)) ∧
      (∀ o, o < s.dst.toNat ∨ s.dst.toNat + 32 ≤ o → t.dbuf.read o = s.dbuf.read o) ∧
      t.dbuf.size = s.dbuf.size

/-! ### KDF (43_kdf.md) -/

/-- R200, R201: the output has ⌈klen/8⌉ bytes; its first klen bits are those of the digests of Z ∥ counter from 1 on, and
the bits beyond klen are 0; the counter returned is ⌈klen/256⌉ + 1 mod 2^32. -/
def Obligations.KdfOutputIsTheTruncatedKeyStream : Prop :=
  ∀ (z : List Byte) (klen : Nat), (Kdf.output z klen).length = (klen + 7) / 8 ∧
    (∀ j q, j < (klen + 7) / 8 → q < 8 →
      ((Kdf.output z klen).getD j 0).getLsbD (7 - q) = (decide (8 * j + q < klen) && keyBit z j q)) ∧
    (Kdf.counter z klen).toNat = ((klen + 255) / 256 + 1) % 2 ^ 32

/-- R203, R204, R209, with klen by R32: a KDF within the length limit and inside DBUF writes the output of the source bytes
as they were from DST on, CT = (⌈klen/256⌉ + 1) mod 2^32, ZF = whether every output bit is 0, and nothing else. -/
def Obligations.KdfWritesOutputCounterAndFlag : Prop :=
  ∀ s : State, s.klen < (2 ^ 32 - 1) * 256 → s.src.toNat + s.len.toNat ≤ s.dbuf.size →
    s.dst.toNat + (s.klen + 7) / 8 ≤ s.dbuf.size →
    let z := (List.range s.len.toNat).map fun j => s.dbuf.read (s.src.toNat + j)
    s.klen = s.klenHi.toNat * 2 ^ 32 + s.klenLo.toNat ∧
    ∃ t, exec .kdf s = .next t ∧
      t = { succeeded s with
            ct := t.ct, dbuf := t.dbuf, status := { (succeeded s).status with zf := t.status.zf } } ∧
      (∀ i < (s.klen + 7) / 8, t.dbuf.read (s.dst.toNat + i) = (Kdf.output z s.klen).getD i 0) ∧
      t.ct.toNat = ((s.klen + 255) / 256 + 1) % 2 ^ 32 ∧
      (t.status.zf = true ↔ ∀ j q, q < 8 → 8 * j + q < s.klen → keyBit z j q = false) ∧
      (∀ o, o < s.dst.toNat ∨ s.dst.toNat + (s.klen + 7) / 8 ≤ o → t.dbuf.read o = s.dbuf.read o) ∧
      t.dbuf.size = s.dbuf.size

/-- R205: KDF is a function of (Z, klen) alone: two KDF commands that succeed on the same Z bytes and klen, whatever else
their states hold, give the same output bytes, CT and ZF, and leave V and B. -/
def Obligations.KdfDependsOnZAndKlenOnly : Prop :=
  ∀ s s' t t' : State, s.klen = s'.klen → s.len = s'.len →
    (∀ i < s.len.toNat, s.dbuf.read (s.src.toNat + i) = s'.dbuf.read (s'.src.toNat + i)) →
    s.klen < (2 ^ 32 - 1) * 256 →
    s.src.toNat + s.len.toNat ≤ s.dbuf.size → s.dst.toNat + (s.klen + 7) / 8 ≤ s.dbuf.size →
    s'.src.toNat + s'.len.toNat ≤ s'.dbuf.size → s'.dst.toNat + (s'.klen + 7) / 8 ≤ s'.dbuf.size →
    exec .kdf s = .next t → exec .kdf s' = .next t' →
      (∀ i < (s.klen + 7) / 8, t.dbuf.read (s.dst.toNat + i) = t'.dbuf.read (s'.dst.toNat + i)) ∧
      t.ct = t'.ct ∧ t.status.zf = t'.status.zf ∧ t.v = s.v ∧ t.b = s.b
end

