-- ==== Sys2Proof/Laws/Arith.lean ====
section
/-! SUPPORT. Arithmetic modulo p: square and multiply is the power, and every residue fits 256 bits. -/

namespace Sys2Proof.Machine

/-- Square and multiply computes the power. -/
theorem powMod_eq (m k b e : Nat) (h : e < 2 ^ k) : powMod m k b e = b ^ e % m := by
  induction k generalizing b e with
  | zero =>
    have : e = 0 := by simpa using h
    subst this
    simp [powMod]
  | succ k ih =>
    have h1 : e / 2 < 2 ^ k := by rw [pow_succ] at h; omega
    have hp : powMod m k (b * b % m) (e / 2) = (b * b) ^ (e / 2) % m := by rw [ih _ _ h1, ← Nat.pow_mod]
    unfold powMod
    rw [hp]
    split
    · rename_i ho
      rw [Nat.mul_mod, Nat.mod_mod, ← Nat.mul_mod]
      congr 1
      have he : e = 2 * (e / 2) + 1 := by omega
      conv_rhs => rw [he, pow_succ, pow_mul, mul_comm, sq]
    · rename_i ho
      congr 1
      have he : e = 2 * (e / 2) := by omega
      conv_rhs => rw [he, pow_mul, sq]

/-- The inverse of R111 as the power it is defined by. -/
theorem invP_eq (v : Nat) : invP v = v ^ (Rom.p - 2) % Rom.p := by
  rw [invP, powMod_eq _ _ _ _ (by decide +kernel), ← Nat.pow_mod]

theorem rom_p_pos : 0 < Rom.p := by decide +kernel

theorem rom_p_lt : Rom.p < 2 ^ 256 := by decide +kernel

/-- The remainder of R8 lies in [0, p). -/
theorem modP_lt (z : Int) : modP z < Rom.p := by
  have h0 : (0 : Int) < (Rom.p : Int) := by exact_mod_cast rom_p_pos
  have h1 := Int.emod_nonneg z (ne_of_gt h0)
  have h2 := Int.emod_lt_of_pos z h0
  unfold modP
  omega

/-- The remainder of R8 as an integer. -/
theorem modP_cast (z : Int) : (modP z : Int) = z % (Rom.p : Int) := by
  have h0 : (0 : Int) < (Rom.p : Int) := by exact_mod_cast rom_p_pos
  exact Int.toNat_of_nonneg (Int.emod_nonneg z (ne_of_gt h0))

/-- A residue is stored without loss. -/
theorem toNat_ofNat_of_lt_p {v : Nat} (h : v < Rom.p) : (BitVec.ofNat 256 v).toNat = v := by
  rw [BitVec.toNat_ofNat, Nat.mod_eq_of_lt (lt_trans h rom_p_lt)]

@[simp] theorem addP_toNat (x y : U256) : (addP x y).toNat = (x.toNat + y.toNat) % Rom.p :=
  toNat_ofNat_of_lt_p (Nat.mod_lt _ rom_p_pos)

@[simp] theorem mulP_toNat (x y : U256) : (mulP x y).toNat = x.toNat * y.toNat % Rom.p :=
  toNat_ofNat_of_lt_p (Nat.mod_lt _ rom_p_pos)

theorem subP_toNat (x y : U256) : ((subP x y).toNat : Int) = ((x.toNat : Int) - (y.toNat : Int)) % (Rom.p : Int) := by
  rw [subP, toNat_ofNat_of_lt_p (modP_lt _), modP_cast]

theorem invP_lt (v : Nat) : invP v < Rom.p := by
  rw [invP_eq]
  exact Nat.mod_lt _ rom_p_pos

/-- A point is canonical: its coordinates lie in [0, p). -/
def Point.isCanon : Point → Prop
  | .infinity => True
  | .finite x y => x.toNat < Rom.p ∧ y.toNat < Rom.p

/-- `canon` reduces. -/
theorem Point.isCanon_canon (q : Point) : q.canon.isCanon := by
  cases q with
  | infinity => trivial
  | finite x y =>
    have hx := Nat.mod_lt x.toNat rom_p_pos
    have hy := Nat.mod_lt y.toNat rom_p_pos
    simp only [Point.canon, Point.isCanon, toNat_ofNat_of_lt_p hx, toNat_ofNat_of_lt_p hy]
    exact ⟨hx, hy⟩

/-- `canon` leaves a canonical point alone. -/
theorem Point.canon_of_isCanon {q : Point} (h : q.isCanon) : q.canon = q := by
  cases q with
  | infinity => rfl
  | finite x y =>
    simp only [Point.canon, Nat.mod_eq_of_lt h.1, Nat.mod_eq_of_lt h.2, BitVec.ofNat_toNat, BitVec.setWidth_eq]

/-- The third point of a line is reduced. -/
theorem isCanon_chord (l x1 y1 x2 : Nat) : (chord l x1 y1 x2).isCanon := by
  simp only [chord, Point.isCanon, toNat_ofNat_of_lt_p (modP_lt _)]
  exact ⟨modP_lt _, modP_lt _⟩

end Sys2Proof.Machine
end

