-- ==== Sys2Proof/Laws/Bytes.lean ====
section
/-! SUPPORT. Byte strings: the length of `be_N`, `int_be` undoes `be_N`, and the words of a 256-bit value. -/

namespace Sys2Proof.Machine

@[simp] theorem beBytes_length (n v : Nat) : (beBytes n v).length = n := by simp [beBytes]

/-- The least significant byte of `be_(n+1)` comes last. -/
theorem beBytes_succ (n v : Nat) : beBytes (n + 1) v = beBytes n (v / 256) ++ [BitVec.ofNat 8 v] := by
  unfold beBytes
  rw [List.range_succ, List.map_append]
  congr 1
  · apply List.map_congr_left
    intro i hi
    have hi : i < n := by simpa using hi
    rw [show n + 1 - 1 - i = (n - 1 - i) + 1 by omega, show 8 * (n - 1 - i + 1) = 8 + 8 * (n - 1 - i) by ring,
      Nat.shiftRight_add, Nat.shiftRight_eq_div_pow v 8]
  · simp

theorem intBe_append (s t : List Byte) : intBe (s ++ t) = t.foldl (fun acc x => 256 * acc + x.toNat) (intBe s) := by
  simp [intBe]

/-- `int_be(be_N(v)) = v` for every v that fits N bytes. -/
theorem intBe_beBytes (n v : Nat) (h : v < 256 ^ n) : intBe (beBytes n v) = v := by
  induction n generalizing v with
  | zero =>
    have : v = 0 := by simpa using h
    subst this
    rfl
  | succ n ih =>
    have h1 : v / 256 < 256 ^ n := by
      rw [Nat.div_lt_iff_lt_mul (by norm_num)]
      simpa [pow_succ] using h
    rw [beBytes_succ, intBe_append, ih _ h1]
    simp only [List.foldl_cons, List.foldl_nil, BitVec.toNat_ofNat]
    omega

/-- A string of n bytes is below 256^n. -/
theorem intBe_lt (s : List Byte) : intBe s < 256 ^ s.length := by
  induction s using List.reverseRecOn with
  | nil => simp [intBe]
  | append_singleton s x ih =>
    rw [intBe_append]
    simp only [List.foldl_cons, List.foldl_nil, List.length_append, List.length_singleton, pow_succ]
    have := x.isLt
    omega

/-- `be_N` undoes `int_be` on a string of N bytes. -/
theorem beBytes_intBe (s : List Byte) : beBytes s.length (intBe s) = s := by
  induction s using List.reverseRecOn with
  | nil => rfl
  | append_singleton s x ih =>
    rw [intBe_append, List.length_append, List.length_singleton, beBytes_succ]
    simp only [List.foldl_cons, List.foldl_nil]
    have hx := x.isLt
    rw [show (256 * intBe s + x.toNat) / 256 = intBe s by omega, ih]
    congr 2
    apply BitVec.eq_of_toNat_eq
    rw [BitVec.toNat_ofNat]
    omega

theorem beBytes_getElem (n v i : Nat) (h : i < (beBytes n v).length) :
    (beBytes n v)[i] = BitVec.ofNat 8 (v >>> (8 * (n - 1 - i))) := by
  simp [beBytes]

@[simp] theorem lowWordMask_getLsbD (i : Nat) : lowWordMask.getLsbD i = decide (i < 32) := by
  have h : lowWordMask = (BitVec.allOnes 32).setWidth 256 := by decide
  rw [h, BitVec.getLsbD_setWidth, BitVec.getLsbD_allOnes]
  by_cases hi : i < 32
  · simp [hi]; omega
  · simp [hi]

/-- Reading a word just written gives it back. -/
@[simp] theorem getWord_setWord_self (v : U256) (j : Fin 8) (w : Word) : getWord (setWord v j w) j = w := by
  ext k hk
  have hj := j.isLt
  have h1 : 224 - 32 * j.val + k < 256 := by omega
  simp only [getWord, setWord, BitVec.getElem_extractLsb', BitVec.getLsbD_or, BitVec.getLsbD_and, BitVec.getLsbD_not,
    BitVec.getLsbD_shiftLeft, BitVec.getLsbD_setWidth, lowWordMask_getLsbD, Nat.add_sub_cancel_left]
  simp [h1, hk, show k < 256 by omega]

/-- Writing one word leaves the other words of the value as they were. -/
theorem getWord_setWord_of_ne (v : U256) {i j : Fin 8} (w : Word) (h : i ≠ j) :
    getWord (setWord v j w) i = getWord v i := by
  ext k hk
  have hi := i.isLt
  have hj := j.isLt
  have hne : i.val ≠ j.val := fun e => h (Fin.ext e)
  have h1 : 224 - 32 * i.val + k < 256 := by omega
  simp only [getWord, setWord, BitVec.getElem_extractLsb', BitVec.getLsbD_or, BitVec.getLsbD_and, BitVec.getLsbD_not,
    BitVec.getLsbD_shiftLeft, BitVec.getLsbD_setWidth, lowWordMask_getLsbD]
  by_cases hlt : 224 - 32 * i.val + k < 224 - 32 * j.val
  · simp [hlt, h1]
  · have h2 : 32 ≤ 224 - 32 * i.val + k - (224 - 32 * j.val) := by omega
    simp [h1, BitVec.getLsbD_of_ge w _ h2, Nat.not_lt.mpr h2]

/-- Writing a word back as it was read changes nothing. -/
@[simp] theorem setWord_getWord (v : U256) (j : Fin 8) : setWord v j (getWord v j) = v := by
  apply BitVec.eq_of_getLsbD_eq
  intro k hk
  have hj := j.isLt
  simp only [setWord, getWord, BitVec.getLsbD_or, BitVec.getLsbD_and, BitVec.getLsbD_not, BitVec.getLsbD_shiftLeft,
    BitVec.getLsbD_setWidth, BitVec.getLsbD_extractLsb', lowWordMask_getLsbD]
  by_cases h1 : k < 224 - 32 * j.val
  · simp [h1, hk]
  · have h3 : 224 - 32 * j.val + (k - (224 - 32 * j.val)) = k := by omega
    have h4 : k - (224 - 32 * j.val) < 256 := by omega
    by_cases h2 : k - (224 - 32 * j.val) < 32
    · simp [h1, h2, h3, h4, hk]
    · simp [h1, h2, hk]

/-- The four bytes of a word put together of four bytes. -/
theorem word_bytes (a b c d : Byte) :
    (a ++ b ++ c ++ d).extractLsb' 24 8 = a ∧ (a ++ b ++ c ++ d).extractLsb' 16 8 = b ∧
    (a ++ b ++ c ++ d).extractLsb' 8 8 = c ∧ (a ++ b ++ c ++ d).extractLsb' 0 8 = d := by
  have ha := a.isLt
  have hb := b.isLt
  have hc := c.isLt
  have hd := d.isLt
  have h : (a ++ b ++ c ++ d).toNat = a.toNat * 2 ^ 24 + b.toNat * 2 ^ 16 + c.toNat * 2 ^ 8 + d.toNat := by
    simp only [BitVec.toNat_append, Nat.shiftLeft_eq, ← Nat.mul_comm (2 ^ 8)]
    rw [← Nat.two_pow_add_eq_or_of_lt hb, ← Nat.two_pow_add_eq_or_of_lt hc, ← Nat.two_pow_add_eq_or_of_lt hd]
    omega
  refine ⟨?_, ?_, ?_, ?_⟩ <;>
    (apply BitVec.eq_of_toNat_eq
     simp only [BitVec.extractLsb'_toNat, h, Nat.shiftRight_eq_div_pow]
     omega)

/-- The number of a word put together of four bytes. -/
theorem word_toNat (a b c d : Byte) :
    (a ++ b ++ c ++ d).toNat = a.toNat * 2 ^ 24 + b.toNat * 2 ^ 16 + c.toNat * 2 ^ 8 + d.toNat := by
  have hb := b.isLt
  have hc := c.isLt
  have hd := d.isLt
  simp only [BitVec.toNat_append, Nat.shiftLeft_eq, ← Nat.mul_comm (2 ^ 8)]
  rw [← Nat.two_pow_add_eq_or_of_lt hb, ← Nat.two_pow_add_eq_or_of_lt hc, ← Nat.two_pow_add_eq_or_of_lt hd]
  omega

end Sys2Proof.Machine
end

