-- ==== Sys2Proof/Laws/Memory.lean ====
section
/-! SUPPORT. DBUF: a read after a write, what a write leaves alone, and that every operation keeps the one form. -/

namespace Sys2Proof.Machine

@[simp] theorem Memory.lookup_insert_self (a : Nat) (x : Byte) (l : List Host.Cell) :
    Memory.lookup a (Memory.insert a x l) = some x := by
  induction l with
  | nil => simp [Memory.insert, Memory.lookup]
  | cons c rest ih =>
    obtain ⟨k, y⟩ := c
    simp only [Memory.insert]
    split
    · simp [Memory.lookup]
    · split
      · simp [Memory.lookup]
      · rename_i h1 h2
        simp [Memory.lookup, Ne.symm h2, ih]

theorem Memory.lookup_insert_of_ne {a b : Nat} (x : Byte) (l : List Host.Cell) (h : b ≠ a) :
    Memory.lookup b (Memory.insert a x l) = Memory.lookup b l := by
  induction l with
  | nil => simp [Memory.insert, Memory.lookup, Ne.symm h]
  | cons c rest ih =>
    obtain ⟨k, y⟩ := c
    simp only [Memory.insert]
    split
    · simp [Memory.lookup, Ne.symm h]
    · split
      · rename_i h1 h2
        subst h2
        simp [Memory.lookup, Ne.symm h]
      · simp [Memory.lookup, ih]

@[simp] theorem Memory.write_size (m : Memory) (a : Nat) (x : Byte) : (m.write a x).size = m.size := rfl
@[simp] theorem Memory.write_draw (m : Memory) (a : Nat) (x : Byte) : (m.write a x).draw = m.draw := rfl

/-- A read after a write to the same place gives the value written. -/
@[simp] theorem Memory.read_write_self (m : Memory) (a : Nat) (x : Byte) : (m.write a x).read a = x := by
  simp [Memory.read, Memory.write]

/-- A write leaves every other place alone. -/
theorem Memory.read_write_of_ne (m : Memory) {a b : Nat} (x : Byte) (h : b ≠ a) :
    (m.write a x).read b = m.read b := by
  simp [Memory.read, Memory.write, Memory.lookup_insert_of_ne x _ h]

@[simp] theorem Memory.writeBytes_size (m : Memory) (o : Nat) (s : List Byte) :
    (m.writeBytes o s).size = m.size := by
  induction s generalizing m o with
  | nil => rfl
  | cons x rest ih => simp [Memory.writeBytes, ih]

@[simp] theorem Memory.writeBytes_draw (m : Memory) (o : Nat) (s : List Byte) :
    (m.writeBytes o s).draw = m.draw := by
  induction s generalizing m o with
  | nil => rfl
  | cons x rest ih => simp [Memory.writeBytes, ih]

/-- Bytes outside the range written keep their value. -/
theorem Memory.read_writeBytes_outside (m : Memory) (o : Nat) (s : List Byte) (a : Nat)
    (h : a < o ∨ o + s.length ≤ a) : (m.writeBytes o s).read a = m.read a := by
  induction s generalizing m o with
  | nil => rfl
  | cons x rest ih =>
    simp only [List.length_cons] at h
    rw [Memory.writeBytes, ih (m.write o x) (o + 1) (by omega)]
    exact Memory.read_write_of_ne m x (by omega)

/-- Bytes inside the range written hold what was written. -/
theorem Memory.read_writeBytes_inside (m : Memory) (o : Nat) (s : List Byte) (i : Nat) (h : i < s.length) :
    (m.writeBytes o s).read (o + i) = s[i] := by
  induction s generalizing m o i with
  | nil => simp at h
  | cons x rest ih =>
    cases i with
    | zero =>
      rw [Memory.writeBytes, Memory.read_writeBytes_outside _ _ _ _ (by omega)]
      simp
    | succ j =>
      have := ih (m.write o x) (o + 1) j (by simpa using h)
      rw [Memory.writeBytes, show o + (j + 1) = o + 1 + j by omega, this]
      simp

@[simp] theorem Memory.readBytes_length (m : Memory) (o n : Nat) : (m.readBytes o n).length = n := by
  simp [Memory.readBytes]

theorem Memory.readBytes_getElem (m : Memory) (o n i : Nat) (h : i < (m.readBytes o n).length) :
    (m.readBytes o n)[i] = m.read (o + i) := by
  simp [Memory.readBytes]

/-- Reading back the range just written gives the string written. -/
theorem Memory.readBytes_writeBytes (m : Memory) (o : Nat) (s : List Byte) :
    (m.writeBytes o s).readBytes o s.length = s := by
  apply List.ext_getElem (by simp)
  intro i h1 h2
  rw [Memory.readBytes_getElem, Memory.read_writeBytes_inside _ _ _ _ h2]

theorem Memory.rising_mono {size lo lo' : Nat} {l : List Host.Cell} (h : lo' ≤ lo)
    (hl : Memory.rising size lo l = true) : Memory.rising size lo' l = true := by
  cases l with
  | nil => rfl
  | cons c rest =>
    obtain ⟨k, x⟩ := c
    simp only [Memory.rising, Bool.and_eq_true, decide_eq_true_eq] at hl ⊢
    exact ⟨⟨by omega, hl.1.2⟩, hl.2⟩

theorem Memory.rising_insert {size lo a : Nat} (x : Byte) {l : List Host.Cell} (hlo : lo ≤ a) (ha : a < size)
    (hl : Memory.rising size lo l = true) : Memory.rising size lo (Memory.insert a x l) = true := by
  induction l generalizing lo with
  | nil => simp [Memory.insert, Memory.rising, hlo, ha]
  | cons c rest ih =>
    obtain ⟨k, y⟩ := c
    simp only [Memory.rising, Bool.and_eq_true, decide_eq_true_eq] at hl
    simp only [Memory.insert]
    split
    · simp only [Memory.rising, Bool.and_eq_true, decide_eq_true_eq]
      exact ⟨⟨hlo, ha⟩, ⟨by omega, hl.1.2⟩, hl.2⟩
    · split
      · rename_i h1 h2
        subst h2
        simp only [Memory.rising, Bool.and_eq_true, decide_eq_true_eq]
        exact ⟨⟨hlo, ha⟩, hl.2⟩
      · simp only [Memory.rising, Bool.and_eq_true, decide_eq_true_eq]
        exact ⟨hl.1, ih (by omega) hl.2⟩

/-- A write inside DBUF keeps the form. -/
theorem Memory.wf_write {m : Memory} {a : Nat} (x : Byte) (hm : m.wf = true) (ha : a < m.size) :
    (m.write a x).wf = true := by
  simp only [Memory.wf, Bool.and_eq_true, Memory.write] at hm ⊢
  exact ⟨hm.1, Memory.rising_insert x (Nat.zero_le _) ha hm.2⟩

/-- A write of a string inside DBUF keeps the form. -/
theorem Memory.wf_writeBytes {m : Memory} {o : Nat} {s : List Byte} (hm : m.wf = true)
    (h : o + s.length ≤ m.size) : (m.writeBytes o s).wf = true := by
  induction s generalizing m o with
  | nil => exact hm
  | cons x rest ih =>
    simp only [List.length_cons] at h
    exact ih (Memory.wf_write x hm (by omega)) (by simp; omega)

@[simp] theorem Memory.scramble_size (m : Memory) (k : Nat) (r : Option (Nat × Nat)) :
    (m.scramble k r).size = m.size := by
  cases r <;> simp [Memory.scramble]

@[simp] theorem Memory.scramble_draw (m : Memory) (k : Nat) (r : Option (Nat × Nat)) :
    (m.scramble k r).draw = m.draw := by
  cases r <;> simp [Memory.scramble]

/-- An abort keeps the form when its range lies inside DBUF. -/
theorem Memory.wf_scramble {m : Memory} (k : Nat) {r : Option (Nat × Nat)} (hm : m.wf = true)
    (h : ∀ o n, r = some (o, n) → o + n ≤ m.size) : (m.scramble k r).wf = true := by
  cases r with
  | none => exact hm
  | some r =>
    obtain ⟨o, n⟩ := r
    exact Memory.wf_writeBytes hm (by simpa using h o n rfl)

/-- An abort keeps every byte outside its range. -/
theorem Memory.read_scramble_outside (m : Memory) (k : Nat) (r : Option (Nat × Nat)) (a : Nat)
    (h : ∀ o n, r = some (o, n) → a < o ∨ o + n ≤ a) : (m.scramble k r).read a = m.read a := by
  cases r with
  | none => rfl
  | some r =>
    obtain ⟨o, n⟩ := r
    exact Memory.read_writeBytes_outside m o _ a (by simpa using h o n rfl)

/-- The due range of a command lies inside DBUF. -/
theorem dueRangeOf_inside {s : State} {i : Instr} {o n : Nat} (h : dueRangeOf s i = some (o, n)) :
    o + n ≤ s.dbuf.size := by
  cases i <;> simp [dueRangeOf, Memory.inRange] at h
  all_goals omega

/-- The due range of the running command lies inside DBUF. -/
theorem State.dueRange_inside {s : State} {o n : Nat} (h : s.dueRange = some (o, n)) : o + n ≤ s.dbuf.size := by
  unfold State.dueRange at h
  split at h
  · simp at h
  · split at h
    · exact dueRangeOf_inside h
    · simp at h

end Sys2Proof.Machine
end

