-- ==== Sys2Proof/Laws/State.lean ====
section
/-! SUPPORT. What each named update makes of each field of the state, true by definition. -/

namespace Sys2Proof.Machine

/-! ### complete -/

@[simp] theorem State.complete_ie (s : State) : s.complete.ie = s.ie := rfl
@[simp] theorem State.complete_status (s : State) : s.complete.status = { s.status with done := true } := rfl
@[simp] theorem State.complete_cmd (s : State) : s.complete.cmd = s.cmd := rfl
@[simp] theorem State.complete_src (s : State) : s.complete.src = s.src := rfl
@[simp] theorem State.complete_dst (s : State) : s.complete.dst = s.dst := rfl
@[simp] theorem State.complete_len (s : State) : s.complete.len = s.len := rfl
@[simp] theorem State.complete_klenLo (s : State) : s.complete.klenLo = s.klenLo := rfl
@[simp] theorem State.complete_klenHi (s : State) : s.complete.klenHi = s.klenHi := rfl
@[simp] theorem State.complete_ct (s : State) : s.complete.ct = s.ct := rfl
@[simp] theorem State.complete_f (s : State) : s.complete.f = s.f := rfl
@[simp] theorem State.complete_p (s : State) : s.complete.p = s.p := rfl
@[simp] theorem State.complete_v (s : State) : s.complete.v = s.v := rfl
@[simp] theorem State.complete_b (s : State) : s.complete.b = s.b := rfl
@[simp] theorem State.complete_dbuf (s : State) : s.complete.dbuf = s.dbuf := rfl
@[simp] theorem State.complete_engine (s : State) : s.complete.engine = .idle := rfl
@[simp] theorem State.complete_inReset (s : State) : s.complete.inReset = s.inReset := rfl
@[simp] theorem State.complete_rdata (s : State) : s.complete.rdata = s.rdata := rfl
@[simp] theorem State.complete_events (s : State) : s.complete.events = s.events := rfl
@[simp] theorem State.complete_draws (s : State) : s.complete.draws = s.draws := rfl

/-! ### raiseCmdError -/

@[simp] theorem State.raiseCmdError_ie (s : State) (c : CmdError) : (s.raiseCmdError c).ie = s.ie := rfl
@[simp] theorem State.raiseCmdError_status (s : State) (c : CmdError) : (s.raiseCmdError c).status = { s.status with done := true, err := true, errcode := some c } := rfl
@[simp] theorem State.raiseCmdError_cmd (s : State) (c : CmdError) : (s.raiseCmdError c).cmd = s.cmd := rfl
@[simp] theorem State.raiseCmdError_src (s : State) (c : CmdError) : (s.raiseCmdError c).src = s.src := rfl
@[simp] theorem State.raiseCmdError_dst (s : State) (c : CmdError) : (s.raiseCmdError c).dst = s.dst := rfl
@[simp] theorem State.raiseCmdError_len (s : State) (c : CmdError) : (s.raiseCmdError c).len = s.len := rfl
@[simp] theorem State.raiseCmdError_klenLo (s : State) (c : CmdError) : (s.raiseCmdError c).klenLo = s.klenLo := rfl
@[simp] theorem State.raiseCmdError_klenHi (s : State) (c : CmdError) : (s.raiseCmdError c).klenHi = s.klenHi := rfl
@[simp] theorem State.raiseCmdError_ct (s : State) (c : CmdError) : (s.raiseCmdError c).ct = s.ct := rfl
@[simp] theorem State.raiseCmdError_f (s : State) (c : CmdError) : (s.raiseCmdError c).f = s.f := rfl
@[simp] theorem State.raiseCmdError_p (s : State) (c : CmdError) : (s.raiseCmdError c).p = s.p := rfl
@[simp] theorem State.raiseCmdError_v (s : State) (c : CmdError) : (s.raiseCmdError c).v = s.v := rfl
@[simp] theorem State.raiseCmdError_b (s : State) (c : CmdError) : (s.raiseCmdError c).b = s.b := rfl
@[simp] theorem State.raiseCmdError_dbuf (s : State) (c : CmdError) : (s.raiseCmdError c).dbuf = s.dbuf := rfl
@[simp] theorem State.raiseCmdError_engine (s : State) (c : CmdError) : (s.raiseCmdError c).engine = .idle := rfl
@[simp] theorem State.raiseCmdError_inReset (s : State) (c : CmdError) : (s.raiseCmdError c).inReset = s.inReset := rfl
@[simp] theorem State.raiseCmdError_rdata (s : State) (c : CmdError) : (s.raiseCmdError c).rdata = s.rdata := rfl
@[simp] theorem State.raiseCmdError_events (s : State) (c : CmdError) : (s.raiseCmdError c).events = s.events := rfl
@[simp] theorem State.raiseCmdError_draws (s : State) (c : CmdError) : (s.raiseCmdError c).draws = s.draws := rfl

/-! ### accept -/

@[simp] theorem State.accept_ie (s : State) (c : Word) : (s.accept c).ie = s.ie := rfl
@[simp] theorem State.accept_status (s : State) (c : Word) : (s.accept c).status = { s.status with done := false } := rfl
@[simp] theorem State.accept_cmd (s : State) (c : Word) : (s.accept c).cmd = c := rfl
@[simp] theorem State.accept_src (s : State) (c : Word) : (s.accept c).src = s.src := rfl
@[simp] theorem State.accept_dst (s : State) (c : Word) : (s.accept c).dst = s.dst := rfl
@[simp] theorem State.accept_len (s : State) (c : Word) : (s.accept c).len = s.len := rfl
@[simp] theorem State.accept_klenLo (s : State) (c : Word) : (s.accept c).klenLo = s.klenLo := rfl
@[simp] theorem State.accept_klenHi (s : State) (c : Word) : (s.accept c).klenHi = s.klenHi := rfl
@[simp] theorem State.accept_ct (s : State) (c : Word) : (s.accept c).ct = s.ct := rfl
@[simp] theorem State.accept_f (s : State) (c : Word) : (s.accept c).f = s.f := rfl
@[simp] theorem State.accept_p (s : State) (c : Word) : (s.accept c).p = s.p := rfl
@[simp] theorem State.accept_v (s : State) (c : Word) : (s.accept c).v = s.v := rfl
@[simp] theorem State.accept_b (s : State) (c : Word) : (s.accept c).b = s.b := rfl
@[simp] theorem State.accept_dbuf (s : State) (c : Word) : (s.accept c).dbuf = s.dbuf := rfl
@[simp] theorem State.accept_engine (s : State) (c : Word) : (s.accept c).engine = .busy c := rfl
@[simp] theorem State.accept_inReset (s : State) (c : Word) : (s.accept c).inReset = s.inReset := rfl
@[simp] theorem State.accept_rdata (s : State) (c : Word) : (s.accept c).rdata = s.rdata := rfl
@[simp] theorem State.accept_events (s : State) (c : Word) : (s.accept c).events = s.events := rfl
@[simp] theorem State.accept_draws (s : State) (c : Word) : (s.accept c).draws = s.draws := rfl

/-! ### acknowledge -/

@[simp] theorem State.acknowledge_ie (s : State) (w : Word) : (s.acknowledge w).ie = s.ie := rfl
@[simp] theorem State.acknowledge_cmd (s : State) (w : Word) : (s.acknowledge w).cmd = s.cmd := rfl
@[simp] theorem State.acknowledge_src (s : State) (w : Word) : (s.acknowledge w).src = s.src := rfl
@[simp] theorem State.acknowledge_dst (s : State) (w : Word) : (s.acknowledge w).dst = s.dst := rfl
@[simp] theorem State.acknowledge_len (s : State) (w : Word) : (s.acknowledge w).len = s.len := rfl
@[simp] theorem State.acknowledge_klenLo (s : State) (w : Word) : (s.acknowledge w).klenLo = s.klenLo := rfl
@[simp] theorem State.acknowledge_klenHi (s : State) (w : Word) : (s.acknowledge w).klenHi = s.klenHi := rfl
@[simp] theorem State.acknowledge_ct (s : State) (w : Word) : (s.acknowledge w).ct = s.ct := rfl
@[simp] theorem State.acknowledge_f (s : State) (w : Word) : (s.acknowledge w).f = s.f := rfl
@[simp] theorem State.acknowledge_p (s : State) (w : Word) : (s.acknowledge w).p = s.p := rfl
@[simp] theorem State.acknowledge_v (s : State) (w : Word) : (s.acknowledge w).v = s.v := rfl
@[simp] theorem State.acknowledge_b (s : State) (w : Word) : (s.acknowledge w).b = s.b := rfl
@[simp] theorem State.acknowledge_dbuf (s : State) (w : Word) : (s.acknowledge w).dbuf = s.dbuf := rfl
@[simp] theorem State.acknowledge_engine (s : State) (w : Word) : (s.acknowledge w).engine = s.engine := rfl
@[simp] theorem State.acknowledge_inReset (s : State) (w : Word) : (s.acknowledge w).inReset = s.inReset := rfl
@[simp] theorem State.acknowledge_rdata (s : State) (w : Word) : (s.acknowledge w).rdata = s.rdata := rfl
@[simp] theorem State.acknowledge_events (s : State) (w : Word) : (s.acknowledge w).events = s.events := rfl
@[simp] theorem State.acknowledge_draws (s : State) (w : Word) : (s.acknowledge w).draws = s.draws := rfl

/-! ### writeF -/

@[simp] theorem State.writeF_ie (s : State) (i : Nibble) (x : U256) : (s.writeF i x).ie = s.ie := rfl
@[simp] theorem State.writeF_status (s : State) (i : Nibble) (x : U256) : (s.writeF i x).status = s.status := rfl
@[simp] theorem State.writeF_cmd (s : State) (i : Nibble) (x : U256) : (s.writeF i x).cmd = s.cmd := rfl
@[simp] theorem State.writeF_src (s : State) (i : Nibble) (x : U256) : (s.writeF i x).src = s.src := rfl
@[simp] theorem State.writeF_dst (s : State) (i : Nibble) (x : U256) : (s.writeF i x).dst = s.dst := rfl
@[simp] theorem State.writeF_len (s : State) (i : Nibble) (x : U256) : (s.writeF i x).len = s.len := rfl
@[simp] theorem State.writeF_klenLo (s : State) (i : Nibble) (x : U256) : (s.writeF i x).klenLo = s.klenLo := rfl
@[simp] theorem State.writeF_klenHi (s : State) (i : Nibble) (x : U256) : (s.writeF i x).klenHi = s.klenHi := rfl
@[simp] theorem State.writeF_ct (s : State) (i : Nibble) (x : U256) : (s.writeF i x).ct = s.ct := rfl
@[simp] theorem State.writeF_f (s : State) (i : Nibble) (x : U256) : (s.writeF i x).f = s.f.set (fIndex i) x := rfl
@[simp] theorem State.writeF_p (s : State) (i : Nibble) (x : U256) : (s.writeF i x).p = s.p := rfl
@[simp] theorem State.writeF_v (s : State) (i : Nibble) (x : U256) : (s.writeF i x).v = s.v := rfl
@[simp] theorem State.writeF_b (s : State) (i : Nibble) (x : U256) : (s.writeF i x).b = s.b := rfl
@[simp] theorem State.writeF_dbuf (s : State) (i : Nibble) (x : U256) : (s.writeF i x).dbuf = s.dbuf := rfl
@[simp] theorem State.writeF_engine (s : State) (i : Nibble) (x : U256) : (s.writeF i x).engine = s.engine := rfl
@[simp] theorem State.writeF_inReset (s : State) (i : Nibble) (x : U256) : (s.writeF i x).inReset = s.inReset := rfl
@[simp] theorem State.writeF_rdata (s : State) (i : Nibble) (x : U256) : (s.writeF i x).rdata = s.rdata := rfl
@[simp] theorem State.writeF_events (s : State) (i : Nibble) (x : U256) : (s.writeF i x).events = s.events := rfl
@[simp] theorem State.writeF_draws (s : State) (i : Nibble) (x : U256) : (s.writeF i x).draws = s.draws := rfl

/-! ### writeTriple -/

@[simp] theorem State.writeTriple_ie (s : State) (i : Nibble) (r : PointReg) : (s.writeTriple i r).ie = s.ie := rfl
@[simp] theorem State.writeTriple_status (s : State) (i : Nibble) (r : PointReg) : (s.writeTriple i r).status = s.status := rfl
@[simp] theorem State.writeTriple_cmd (s : State) (i : Nibble) (r : PointReg) : (s.writeTriple i r).cmd = s.cmd := rfl
@[simp] theorem State.writeTriple_src (s : State) (i : Nibble) (r : PointReg) : (s.writeTriple i r).src = s.src := rfl
@[simp] theorem State.writeTriple_dst (s : State) (i : Nibble) (r : PointReg) : (s.writeTriple i r).dst = s.dst := rfl
@[simp] theorem State.writeTriple_len (s : State) (i : Nibble) (r : PointReg) : (s.writeTriple i r).len = s.len := rfl
@[simp] theorem State.writeTriple_klenLo (s : State) (i : Nibble) (r : PointReg) : (s.writeTriple i r).klenLo = s.klenLo := rfl
@[simp] theorem State.writeTriple_klenHi (s : State) (i : Nibble) (r : PointReg) : (s.writeTriple i r).klenHi = s.klenHi := rfl
@[simp] theorem State.writeTriple_ct (s : State) (i : Nibble) (r : PointReg) : (s.writeTriple i r).ct = s.ct := rfl
@[simp] theorem State.writeTriple_f (s : State) (i : Nibble) (r : PointReg) : (s.writeTriple i r).f = s.f := rfl
@[simp] theorem State.writeTriple_p (s : State) (i : Nibble) (r : PointReg) : (s.writeTriple i r).p = s.p.set (pIndex i) r := rfl
@[simp] theorem State.writeTriple_v (s : State) (i : Nibble) (r : PointReg) : (s.writeTriple i r).v = s.v := rfl
@[simp] theorem State.writeTriple_b (s : State) (i : Nibble) (r : PointReg) : (s.writeTriple i r).b = s.b := rfl
@[simp] theorem State.writeTriple_dbuf (s : State) (i : Nibble) (r : PointReg) : (s.writeTriple i r).dbuf = s.dbuf := rfl
@[simp] theorem State.writeTriple_engine (s : State) (i : Nibble) (r : PointReg) : (s.writeTriple i r).engine = s.engine := rfl
@[simp] theorem State.writeTriple_inReset (s : State) (i : Nibble) (r : PointReg) : (s.writeTriple i r).inReset = s.inReset := rfl
@[simp] theorem State.writeTriple_rdata (s : State) (i : Nibble) (r : PointReg) : (s.writeTriple i r).rdata = s.rdata := rfl
@[simp] theorem State.writeTriple_events (s : State) (i : Nibble) (r : PointReg) : (s.writeTriple i r).events = s.events := rfl
@[simp] theorem State.writeTriple_draws (s : State) (i : Nibble) (r : PointReg) : (s.writeTriple i r).draws = s.draws := rfl

/-! ### writeP -/

@[simp] theorem State.writeP_ie (s : State) (i : Nibble) (q : Point) : (s.writeP i q).ie = s.ie := rfl
@[simp] theorem State.writeP_status (s : State) (i : Nibble) (q : Point) : (s.writeP i q).status = s.status := rfl
@[simp] theorem State.writeP_cmd (s : State) (i : Nibble) (q : Point) : (s.writeP i q).cmd = s.cmd := rfl
@[simp] theorem State.writeP_src (s : State) (i : Nibble) (q : Point) : (s.writeP i q).src = s.src := rfl
@[simp] theorem State.writeP_dst (s : State) (i : Nibble) (q : Point) : (s.writeP i q).dst = s.dst := rfl
@[simp] theorem State.writeP_len (s : State) (i : Nibble) (q : Point) : (s.writeP i q).len = s.len := rfl
@[simp] theorem State.writeP_klenLo (s : State) (i : Nibble) (q : Point) : (s.writeP i q).klenLo = s.klenLo := rfl
@[simp] theorem State.writeP_klenHi (s : State) (i : Nibble) (q : Point) : (s.writeP i q).klenHi = s.klenHi := rfl
@[simp] theorem State.writeP_ct (s : State) (i : Nibble) (q : Point) : (s.writeP i q).ct = s.ct := rfl
@[simp] theorem State.writeP_f (s : State) (i : Nibble) (q : Point) : (s.writeP i q).f = s.f := rfl
@[simp] theorem State.writeP_p (s : State) (i : Nibble) (q : Point) : (s.writeP i q).p = s.p.set (pIndex i) q.toReg := rfl
@[simp] theorem State.writeP_v (s : State) (i : Nibble) (q : Point) : (s.writeP i q).v = s.v := rfl
@[simp] theorem State.writeP_b (s : State) (i : Nibble) (q : Point) : (s.writeP i q).b = s.b := rfl
@[simp] theorem State.writeP_dbuf (s : State) (i : Nibble) (q : Point) : (s.writeP i q).dbuf = s.dbuf := rfl
@[simp] theorem State.writeP_engine (s : State) (i : Nibble) (q : Point) : (s.writeP i q).engine = s.engine := rfl
@[simp] theorem State.writeP_inReset (s : State) (i : Nibble) (q : Point) : (s.writeP i q).inReset = s.inReset := rfl
@[simp] theorem State.writeP_rdata (s : State) (i : Nibble) (q : Point) : (s.writeP i q).rdata = s.rdata := rfl
@[simp] theorem State.writeP_events (s : State) (i : Nibble) (q : Point) : (s.writeP i q).events = s.events := rfl
@[simp] theorem State.writeP_draws (s : State) (i : Nibble) (q : Point) : (s.writeP i q).draws = s.draws := rfl

/-! ### memWrite -/

@[simp] theorem State.memWrite_ie (s : State) (o : Nat) (x : List Byte) : (s.memWrite o x).ie = s.ie := rfl
@[simp] theorem State.memWrite_status (s : State) (o : Nat) (x : List Byte) : (s.memWrite o x).status = s.status := rfl
@[simp] theorem State.memWrite_cmd (s : State) (o : Nat) (x : List Byte) : (s.memWrite o x).cmd = s.cmd := rfl
@[simp] theorem State.memWrite_src (s : State) (o : Nat) (x : List Byte) : (s.memWrite o x).src = s.src := rfl
@[simp] theorem State.memWrite_dst (s : State) (o : Nat) (x : List Byte) : (s.memWrite o x).dst = s.dst := rfl
@[simp] theorem State.memWrite_len (s : State) (o : Nat) (x : List Byte) : (s.memWrite o x).len = s.len := rfl
@[simp] theorem State.memWrite_klenLo (s : State) (o : Nat) (x : List Byte) : (s.memWrite o x).klenLo = s.klenLo := rfl
@[simp] theorem State.memWrite_klenHi (s : State) (o : Nat) (x : List Byte) : (s.memWrite o x).klenHi = s.klenHi := rfl
@[simp] theorem State.memWrite_ct (s : State) (o : Nat) (x : List Byte) : (s.memWrite o x).ct = s.ct := rfl
@[simp] theorem State.memWrite_f (s : State) (o : Nat) (x : List Byte) : (s.memWrite o x).f = s.f := rfl
@[simp] theorem State.memWrite_p (s : State) (o : Nat) (x : List Byte) : (s.memWrite o x).p = s.p := rfl
@[simp] theorem State.memWrite_v (s : State) (o : Nat) (x : List Byte) : (s.memWrite o x).v = s.v := rfl
@[simp] theorem State.memWrite_b (s : State) (o : Nat) (x : List Byte) : (s.memWrite o x).b = s.b := rfl
@[simp] theorem State.memWrite_dbuf (s : State) (o : Nat) (x : List Byte) : (s.memWrite o x).dbuf = s.dbuf.writeBytes o x := rfl
@[simp] theorem State.memWrite_engine (s : State) (o : Nat) (x : List Byte) : (s.memWrite o x).engine = s.engine := rfl
@[simp] theorem State.memWrite_inReset (s : State) (o : Nat) (x : List Byte) : (s.memWrite o x).inReset = s.inReset := rfl
@[simp] theorem State.memWrite_rdata (s : State) (o : Nat) (x : List Byte) : (s.memWrite o x).rdata = s.rdata := rfl
@[simp] theorem State.memWrite_events (s : State) (o : Nat) (x : List Byte) : (s.memWrite o x).events = s.events := rfl
@[simp] theorem State.memWrite_draws (s : State) (o : Nat) (x : List Byte) : (s.memWrite o x).draws = s.draws := rfl

/-! ### setT -/

@[simp] theorem State.setT_ie (s : State) (x : Bool) : (s.setT x).ie = s.ie := rfl
@[simp] theorem State.setT_status (s : State) (x : Bool) : (s.setT x).status = { s.status with t := x } := rfl
@[simp] theorem State.setT_cmd (s : State) (x : Bool) : (s.setT x).cmd = s.cmd := rfl
@[simp] theorem State.setT_src (s : State) (x : Bool) : (s.setT x).src = s.src := rfl
@[simp] theorem State.setT_dst (s : State) (x : Bool) : (s.setT x).dst = s.dst := rfl
@[simp] theorem State.setT_len (s : State) (x : Bool) : (s.setT x).len = s.len := rfl
@[simp] theorem State.setT_klenLo (s : State) (x : Bool) : (s.setT x).klenLo = s.klenLo := rfl
@[simp] theorem State.setT_klenHi (s : State) (x : Bool) : (s.setT x).klenHi = s.klenHi := rfl
@[simp] theorem State.setT_ct (s : State) (x : Bool) : (s.setT x).ct = s.ct := rfl
@[simp] theorem State.setT_f (s : State) (x : Bool) : (s.setT x).f = s.f := rfl
@[simp] theorem State.setT_p (s : State) (x : Bool) : (s.setT x).p = s.p := rfl
@[simp] theorem State.setT_v (s : State) (x : Bool) : (s.setT x).v = s.v := rfl
@[simp] theorem State.setT_b (s : State) (x : Bool) : (s.setT x).b = s.b := rfl
@[simp] theorem State.setT_dbuf (s : State) (x : Bool) : (s.setT x).dbuf = s.dbuf := rfl
@[simp] theorem State.setT_engine (s : State) (x : Bool) : (s.setT x).engine = s.engine := rfl
@[simp] theorem State.setT_inReset (s : State) (x : Bool) : (s.setT x).inReset = s.inReset := rfl
@[simp] theorem State.setT_rdata (s : State) (x : Bool) : (s.setT x).rdata = s.rdata := rfl
@[simp] theorem State.setT_events (s : State) (x : Bool) : (s.setT x).events = s.events := rfl
@[simp] theorem State.setT_draws (s : State) (x : Bool) : (s.setT x).draws = s.draws := rfl

/-! ### setZF -/

@[simp] theorem State.setZF_ie (s : State) (x : Bool) : (s.setZF x).ie = s.ie := rfl
@[simp] theorem State.setZF_status (s : State) (x : Bool) : (s.setZF x).status = { s.status with zf := x } := rfl
@[simp] theorem State.setZF_cmd (s : State) (x : Bool) : (s.setZF x).cmd = s.cmd := rfl
@[simp] theorem State.setZF_src (s : State) (x : Bool) : (s.setZF x).src = s.src := rfl
@[simp] theorem State.setZF_dst (s : State) (x : Bool) : (s.setZF x).dst = s.dst := rfl
@[simp] theorem State.setZF_len (s : State) (x : Bool) : (s.setZF x).len = s.len := rfl
@[simp] theorem State.setZF_klenLo (s : State) (x : Bool) : (s.setZF x).klenLo = s.klenLo := rfl
@[simp] theorem State.setZF_klenHi (s : State) (x : Bool) : (s.setZF x).klenHi = s.klenHi := rfl
@[simp] theorem State.setZF_ct (s : State) (x : Bool) : (s.setZF x).ct = s.ct := rfl
@[simp] theorem State.setZF_f (s : State) (x : Bool) : (s.setZF x).f = s.f := rfl
@[simp] theorem State.setZF_p (s : State) (x : Bool) : (s.setZF x).p = s.p := rfl
@[simp] theorem State.setZF_v (s : State) (x : Bool) : (s.setZF x).v = s.v := rfl
@[simp] theorem State.setZF_b (s : State) (x : Bool) : (s.setZF x).b = s.b := rfl
@[simp] theorem State.setZF_dbuf (s : State) (x : Bool) : (s.setZF x).dbuf = s.dbuf := rfl
@[simp] theorem State.setZF_engine (s : State) (x : Bool) : (s.setZF x).engine = s.engine := rfl
@[simp] theorem State.setZF_inReset (s : State) (x : Bool) : (s.setZF x).inReset = s.inReset := rfl
@[simp] theorem State.setZF_rdata (s : State) (x : Bool) : (s.setZF x).rdata = s.rdata := rfl
@[simp] theorem State.setZF_events (s : State) (x : Bool) : (s.setZF x).events = s.events := rfl
@[simp] theorem State.setZF_draws (s : State) (x : Bool) : (s.setZF x).draws = s.draws := rfl

/-! ### setOvr -/

@[simp] theorem State.setOvr_ie (s : State) : s.setOvr.ie = s.ie := rfl
@[simp] theorem State.setOvr_status (s : State) : s.setOvr.status = { s.status with ovr := true } := rfl
@[simp] theorem State.setOvr_cmd (s : State) : s.setOvr.cmd = s.cmd := rfl
@[simp] theorem State.setOvr_src (s : State) : s.setOvr.src = s.src := rfl
@[simp] theorem State.setOvr_dst (s : State) : s.setOvr.dst = s.dst := rfl
@[simp] theorem State.setOvr_len (s : State) : s.setOvr.len = s.len := rfl
@[simp] theorem State.setOvr_klenLo (s : State) : s.setOvr.klenLo = s.klenLo := rfl
@[simp] theorem State.setOvr_klenHi (s : State) : s.setOvr.klenHi = s.klenHi := rfl
@[simp] theorem State.setOvr_ct (s : State) : s.setOvr.ct = s.ct := rfl
@[simp] theorem State.setOvr_f (s : State) : s.setOvr.f = s.f := rfl
@[simp] theorem State.setOvr_p (s : State) : s.setOvr.p = s.p := rfl
@[simp] theorem State.setOvr_v (s : State) : s.setOvr.v = s.v := rfl
@[simp] theorem State.setOvr_b (s : State) : s.setOvr.b = s.b := rfl
@[simp] theorem State.setOvr_dbuf (s : State) : s.setOvr.dbuf = s.dbuf := rfl
@[simp] theorem State.setOvr_engine (s : State) : s.setOvr.engine = s.engine := rfl
@[simp] theorem State.setOvr_inReset (s : State) : s.setOvr.inReset = s.inReset := rfl
@[simp] theorem State.setOvr_rdata (s : State) : s.setOvr.rdata = s.rdata := rfl
@[simp] theorem State.setOvr_events (s : State) : s.setOvr.events = s.events := rfl
@[simp] theorem State.setOvr_draws (s : State) : s.setOvr.draws = s.draws := rfl

/-! ### setBerr -/

@[simp] theorem State.setBerr_ie (s : State) : s.setBerr.ie = s.ie := rfl
@[simp] theorem State.setBerr_status (s : State) : s.setBerr.status = { s.status with berr := true } := rfl
@[simp] theorem State.setBerr_cmd (s : State) : s.setBerr.cmd = s.cmd := rfl
@[simp] theorem State.setBerr_src (s : State) : s.setBerr.src = s.src := rfl
@[simp] theorem State.setBerr_dst (s : State) : s.setBerr.dst = s.dst := rfl
@[simp] theorem State.setBerr_len (s : State) : s.setBerr.len = s.len := rfl
@[simp] theorem State.setBerr_klenLo (s : State) : s.setBerr.klenLo = s.klenLo := rfl
@[simp] theorem State.setBerr_klenHi (s : State) : s.setBerr.klenHi = s.klenHi := rfl
@[simp] theorem State.setBerr_ct (s : State) : s.setBerr.ct = s.ct := rfl
@[simp] theorem State.setBerr_f (s : State) : s.setBerr.f = s.f := rfl
@[simp] theorem State.setBerr_p (s : State) : s.setBerr.p = s.p := rfl
@[simp] theorem State.setBerr_v (s : State) : s.setBerr.v = s.v := rfl
@[simp] theorem State.setBerr_b (s : State) : s.setBerr.b = s.b := rfl
@[simp] theorem State.setBerr_dbuf (s : State) : s.setBerr.dbuf = s.dbuf := rfl
@[simp] theorem State.setBerr_engine (s : State) : s.setBerr.engine = s.engine := rfl
@[simp] theorem State.setBerr_inReset (s : State) : s.setBerr.inReset = s.inReset := rfl
@[simp] theorem State.setBerr_rdata (s : State) : s.setBerr.rdata = s.rdata := rfl
@[simp] theorem State.setBerr_events (s : State) : s.setBerr.events = s.events := rfl
@[simp] theorem State.setBerr_draws (s : State) : s.setBerr.draws = s.draws := rfl

/-! ### writePinf -/

@[simp] theorem State.writePinf_ie (s : State) (w : Word) : (s.writePinf w).ie = s.ie := rfl
@[simp] theorem State.writePinf_status (s : State) (w : Word) : (s.writePinf w).status = s.status := rfl
@[simp] theorem State.writePinf_cmd (s : State) (w : Word) : (s.writePinf w).cmd = s.cmd := rfl
@[simp] theorem State.writePinf_src (s : State) (w : Word) : (s.writePinf w).src = s.src := rfl
@[simp] theorem State.writePinf_dst (s : State) (w : Word) : (s.writePinf w).dst = s.dst := rfl
@[simp] theorem State.writePinf_len (s : State) (w : Word) : (s.writePinf w).len = s.len := rfl
@[simp] theorem State.writePinf_klenLo (s : State) (w : Word) : (s.writePinf w).klenLo = s.klenLo := rfl
@[simp] theorem State.writePinf_klenHi (s : State) (w : Word) : (s.writePinf w).klenHi = s.klenHi := rfl
@[simp] theorem State.writePinf_ct (s : State) (w : Word) : (s.writePinf w).ct = s.ct := rfl
@[simp] theorem State.writePinf_f (s : State) (w : Word) : (s.writePinf w).f = s.f := rfl
@[simp] theorem State.writePinf_v (s : State) (w : Word) : (s.writePinf w).v = s.v := rfl
@[simp] theorem State.writePinf_b (s : State) (w : Word) : (s.writePinf w).b = s.b := rfl
@[simp] theorem State.writePinf_dbuf (s : State) (w : Word) : (s.writePinf w).dbuf = s.dbuf := rfl
@[simp] theorem State.writePinf_engine (s : State) (w : Word) : (s.writePinf w).engine = s.engine := rfl
@[simp] theorem State.writePinf_inReset (s : State) (w : Word) : (s.writePinf w).inReset = s.inReset := rfl
@[simp] theorem State.writePinf_rdata (s : State) (w : Word) : (s.writePinf w).rdata = s.rdata := rfl
@[simp] theorem State.writePinf_events (s : State) (w : Word) : (s.writePinf w).events = s.events := rfl
@[simp] theorem State.writePinf_draws (s : State) (w : Word) : (s.writePinf w).draws = s.draws := rfl

/-! ### resetRegisters -/

@[simp] theorem State.resetRegisters_ie (s : State) : s.resetRegisters.ie = State.reset.ie := rfl
@[simp] theorem State.resetRegisters_status (s : State) : s.resetRegisters.status = State.reset.status := rfl
@[simp] theorem State.resetRegisters_cmd (s : State) : s.resetRegisters.cmd = State.reset.cmd := rfl
@[simp] theorem State.resetRegisters_src (s : State) : s.resetRegisters.src = State.reset.src := rfl
@[simp] theorem State.resetRegisters_dst (s : State) : s.resetRegisters.dst = State.reset.dst := rfl
@[simp] theorem State.resetRegisters_len (s : State) : s.resetRegisters.len = State.reset.len := rfl
@[simp] theorem State.resetRegisters_klenLo (s : State) : s.resetRegisters.klenLo = State.reset.klenLo := rfl
@[simp] theorem State.resetRegisters_klenHi (s : State) : s.resetRegisters.klenHi = State.reset.klenHi := rfl
@[simp] theorem State.resetRegisters_ct (s : State) : s.resetRegisters.ct = State.reset.ct := rfl
@[simp] theorem State.resetRegisters_f (s : State) : s.resetRegisters.f = State.reset.f := rfl
@[simp] theorem State.resetRegisters_p (s : State) : s.resetRegisters.p = State.reset.p := rfl
@[simp] theorem State.resetRegisters_v (s : State) : s.resetRegisters.v = State.reset.v := rfl
@[simp] theorem State.resetRegisters_b (s : State) : s.resetRegisters.b = State.reset.b := rfl
@[simp] theorem State.resetRegisters_dbuf (s : State) : s.resetRegisters.dbuf = s.dbuf := rfl
@[simp] theorem State.resetRegisters_engine (s : State) : s.resetRegisters.engine = State.reset.engine := rfl
@[simp] theorem State.resetRegisters_inReset (s : State) : s.resetRegisters.inReset = s.inReset := rfl
@[simp] theorem State.resetRegisters_rdata (s : State) : s.resetRegisters.rdata = s.rdata := rfl
@[simp] theorem State.resetRegisters_events (s : State) : s.resetRegisters.events = s.events := rfl
@[simp] theorem State.resetRegisters_draws (s : State) : s.resetRegisters.draws = s.draws := rfl

/-! ### softReset -/

@[simp] theorem State.softReset_ie (s : State) : s.softReset.ie = State.reset.ie := rfl
@[simp] theorem State.softReset_status (s : State) : s.softReset.status = State.reset.status := rfl
@[simp] theorem State.softReset_cmd (s : State) : s.softReset.cmd = State.reset.cmd := rfl
@[simp] theorem State.softReset_src (s : State) : s.softReset.src = State.reset.src := rfl
@[simp] theorem State.softReset_dst (s : State) : s.softReset.dst = State.reset.dst := rfl
@[simp] theorem State.softReset_len (s : State) : s.softReset.len = State.reset.len := rfl
@[simp] theorem State.softReset_klenLo (s : State) : s.softReset.klenLo = State.reset.klenLo := rfl
@[simp] theorem State.softReset_klenHi (s : State) : s.softReset.klenHi = State.reset.klenHi := rfl
@[simp] theorem State.softReset_ct (s : State) : s.softReset.ct = State.reset.ct := rfl
@[simp] theorem State.softReset_f (s : State) : s.softReset.f = State.reset.f := rfl
@[simp] theorem State.softReset_p (s : State) : s.softReset.p = State.reset.p := rfl
@[simp] theorem State.softReset_v (s : State) : s.softReset.v = State.reset.v := rfl
@[simp] theorem State.softReset_b (s : State) : s.softReset.b = State.reset.b := rfl
@[simp] theorem State.softReset_dbuf (s : State) : s.softReset.dbuf = s.dbuf.scramble s.draws s.dueRange := rfl
@[simp] theorem State.softReset_engine (s : State) : s.softReset.engine = State.reset.engine := rfl
@[simp] theorem State.softReset_inReset (s : State) : s.softReset.inReset = s.inReset := rfl
@[simp] theorem State.softReset_rdata (s : State) : s.softReset.rdata = s.rdata := rfl
@[simp] theorem State.softReset_events (s : State) : s.softReset.events = s.events := rfl
@[simp] theorem State.softReset_draws (s : State) : s.softReset.draws = s.draws + 1 := rfl

/-! ### hardReset -/

@[simp] theorem State.hardReset_ie (s : State) : s.hardReset.ie = State.reset.ie := rfl
@[simp] theorem State.hardReset_status (s : State) : s.hardReset.status = State.reset.status := rfl
@[simp] theorem State.hardReset_cmd (s : State) : s.hardReset.cmd = State.reset.cmd := rfl
@[simp] theorem State.hardReset_src (s : State) : s.hardReset.src = State.reset.src := rfl
@[simp] theorem State.hardReset_dst (s : State) : s.hardReset.dst = State.reset.dst := rfl
@[simp] theorem State.hardReset_len (s : State) : s.hardReset.len = State.reset.len := rfl
@[simp] theorem State.hardReset_klenLo (s : State) : s.hardReset.klenLo = State.reset.klenLo := rfl
@[simp] theorem State.hardReset_klenHi (s : State) : s.hardReset.klenHi = State.reset.klenHi := rfl
@[simp] theorem State.hardReset_ct (s : State) : s.hardReset.ct = State.reset.ct := rfl
@[simp] theorem State.hardReset_f (s : State) : s.hardReset.f = State.reset.f := rfl
@[simp] theorem State.hardReset_p (s : State) : s.hardReset.p = State.reset.p := rfl
@[simp] theorem State.hardReset_v (s : State) : s.hardReset.v = State.reset.v := rfl
@[simp] theorem State.hardReset_b (s : State) : s.hardReset.b = State.reset.b := rfl
@[simp] theorem State.hardReset_dbuf (s : State) : s.hardReset.dbuf = { size := s.dbuf.size, cells := [], draw := s.draws } := rfl
@[simp] theorem State.hardReset_engine (s : State) : s.hardReset.engine = State.reset.engine := rfl
@[simp] theorem State.hardReset_inReset (s : State) : s.hardReset.inReset = false := rfl
@[simp] theorem State.hardReset_rdata (s : State) : s.hardReset.rdata = s.rdata := rfl
@[simp] theorem State.hardReset_events (s : State) : s.hardReset.events = s.events := rfl
@[simp] theorem State.hardReset_draws (s : State) : s.hardReset.draws = s.draws + 1 := rfl

end Sys2Proof.Machine
end

