-- ==== Sys2Proof/Laws/Bus.lean ====
section
/-! SUPPORT. The host's window: the register map read forwards and backwards, what a transfer reaches, and a register
read after a register written. -/

namespace Sys2Proof.Machine

/-- Every register stands at its offset (10_state.md R21). -/
@[simp] theorem regAt_offset (r : Reg) : regAt r.offset = some r := by
  cases r with
  | fWord i j => revert i j; decide
  | xWord i j => revert i j; decide
  | yWord i j => revert i j; decide
  | vWord k => revert k; decide
  | bWord k => revert k; decide
  | _ => rfl

/-- The offset of the register found at an offset is that offset. -/
theorem offset_of_regAt {o : Nat} {r : Reg} (h : regAt o = some r) : r.offset = o := by
  unfold regAt at h
  split at h
  · simp at h
  · rename_i h4
    split at h
    · obtain ⟨hl, rfl⟩ := List.getElem?_eq_some_iff.1 h
      have h12 : o / 4 < 12 := hl
      have : ∀ q : Fin 12, (lowRegs[q.val]'q.isLt).offset = 4 * q.val := by decide
      have := this ⟨o / 4, h12⟩
      simp only at this
      omega
    · split at h
      · cases h
        simp only [Reg.offset, Fin.val_ofNat]
        omega
      · split at h
        · split at h <;> cases h <;> simp only [Reg.offset, Fin.val_ofNat] <;> omega
        · split at h
          · cases h
            simp only [Reg.offset, Fin.val_ofNat]
            omega
          · split at h
            · cases h
              simp only [Reg.offset, Fin.val_ofNat]
              omega
            · simp at h

/-- Different registers have different offsets. -/
theorem offset_injective {r r' : Reg} (h : r.offset = r'.offset) : r = r' := by
  have := regAt_offset r
  rw [h, regAt_offset r'] at this
  exact (Option.some.inj this).symm

/-- Registers lie in the first 0x380 bytes of the register page. -/
theorem Reg.offset_lt (r : Reg) : r.offset < 0x380 := by
  cases r <;> simp only [Reg.offset] <;> omega

/-- Which offsets of the register page hold a register (10_state.md R21). -/
theorem regAt_isSome_iff (o : Nat) : (regAt o).isSome = true ↔
    o % 4 = 0 ∧ (o ≤ 0x02C ∨ 0x100 ≤ o ∧ o < 0x320 ∨ 0x340 ≤ o ∧ o < 0x380) := by
  unfold regAt
  split
  · simp; omega
  · split
    · have : lowRegs.length = 12 := rfl
      simp only [Option.isSome_iff_exists, List.getElem?_eq_some_iff]
      constructor
      · rintro ⟨r, hl, -⟩; omega
      · intro h; exact ⟨_, by omega, rfl⟩
    · repeat' split
      all_goals simp; try omega

/-- A 32-bit transfer at a register's offset reaches that register. -/
theorem target_reg (n : Nat) (r : Reg) {off : BitVec 16} (h : off.toNat = r.offset) :
    target n off .w32 = some (.reg r) := by
  have := r.offset_lt
  simp [target, h, show r.offset < 0x1000 by omega]

/-- What a transfer that reaches something reaches. -/
theorem target_cases {n : Nat} {off : BitVec 16} {w : Width} {t : Target} (h : target n off w = some t) :
    (w = .w32 ∧ ∃ r, t = .reg r ∧ off.toNat = r.offset) ∨
    (w = .w8 ∧ ∃ o, t = .byte o ∧ off.toNat = 0x1000 + o ∧ o < n) ∨
    (w = .w32 ∧ ∃ o, t = .word o ∧ off.toNat = 0x1000 + o ∧ o < n ∧ o % 4 = 0) := by
  unfold target at h
  split at h
  · cases w <;> simp at h
    obtain ⟨r, hr, rfl⟩ := h
    exact .inl ⟨rfl, r, rfl, (offset_of_regAt hr).symm⟩
  · split at h
    · cases w <;> simp at h
      · exact .inr (.inl ⟨rfl, _, h.symm, by omega, by omega⟩)
      · obtain ⟨h1, rfl⟩ := h
        exact .inr (.inr ⟨rfl, _, rfl, by omega, by omega, by omega⟩)
    · simp at h

/-- An 8-bit transfer inside DBUF reaches that byte. -/
theorem target_byte {n o : Nat} {off : BitVec 16} (h : off.toNat = 0x1000 + o) (ho : o < n) :
    target n off .w8 = some (.byte o) := by
  simp [target, h, ho]

/-- An aligned 32-bit transfer inside DBUF reaches the word of four bytes from there on. -/
theorem target_word {n o : Nat} {off : BitVec 16} (h : off.toNat = 0x1000 + o) (ho : o < n) (h4 : o % 4 = 0) :
    target n off .w32 = some (.word o) := by
  simp [target, h, ho, show (4096 + o) % 4 = 0 by omega]

/-- A register written and stored whole reads back. -/
theorem Reg.read_write_self (v : Word) (s : State) (r : Reg)
    (h : r ∉ [Reg.id, .version, .ctrl, .status, .cmd, .ct, .pinf]) : r.read (r.write v s) = v := by
  cases r <;> simp at h <;> simp [Reg.read, Reg.write]

/-- A point register after one of the four is replaced. -/
theorem point_set (p : Vector PointReg 4) (i : Fin 4) (r : PointReg) (j : Fin 4) :
    (p.set i r)[j] = if j = i then r else p[j] := by
  by_cases h : j = i
  · subst h; simp
  · have : i.val ≠ j.val := fun e => h (Fin.ext e.symm)
    simp [h, Vector.getElem_set_ne, this]

/-- PINF is a function of the four tags. -/
theorem pinfWord_congr {s t : State} (h : ∀ j : Fin 4, s.p[j].inf = t.p[j].inf) : s.pinfWord = t.pinfWord := by
  have h0 := h 0
  have h1 := h 1
  have h2 := h 2
  have h3 := h 3
  simp only [Fin.getElem_fin, Fin.val_zero, Fin.val_one, Fin.val_two] at h0 h1 h2
  change s.p[3].inf = t.p[3].inf at h3
  simp [State.pinfWord, h0, h1, h2, h3]

/-- A write to a register that is stored whole leaves every other register as it reads. -/
theorem Reg.read_write_of_ne (v : Word) (s : State) {r r' : Reg}
    (h : r ∉ [Reg.id, .version, .ctrl, .status, .cmd, .ct, .pinf]) (hne : r' ≠ r) :
    r'.read (r.write v s) = r'.read s := by
  cases r <;> simp at h
  case fWord i j =>
    cases r' <;> simp only [Reg.read, Reg.write] <;> try rfl
    rename_i i' j'
    by_cases hi : i' = i
    · subst hi
      have : j' ≠ j := fun e => hne (by rw [e])
      simp [getWord_setWord_of_ne _ _ this]
    · have : i.val ≠ i'.val := fun e => hi (Fin.ext e.symm)
      simp [Vector.getElem_set_ne, this]
  case xWord i j =>
    have hp := point_set s.p i { s.p[i] with x := setWord s.p[i].x j v }
    cases r' <;> simp only [Reg.read, Reg.write] <;> try rfl
    case pinf =>
      refine pinfWord_congr fun k => ?_
      refine (congrArg PointReg.inf (hp k)).trans ?_
      split <;> simp_all
    case yWord i' j' => rw [hp]; split <;> simp_all
    case xWord i' j' =>
      rw [hp]
      split
      · rename_i hi
        subst hi
        exact getWord_setWord_of_ne _ _ fun e => hne (by rw [e])
      · rfl
  case yWord i j =>
    have hp := point_set s.p i { s.p[i] with y := setWord s.p[i].y j v }
    cases r' <;> simp only [Reg.read, Reg.write] <;> try rfl
    case pinf =>
      refine pinfWord_congr fun k => ?_
      refine (congrArg PointReg.inf (hp k)).trans ?_
      split <;> simp_all
    case xWord i' j' => rw [hp]; split <;> simp_all
    case yWord i' j' =>
      rw [hp]
      split
      · rename_i hi
        subst hi
        exact getWord_setWord_of_ne _ _ fun e => hne (by rw [e])
      · rfl
  case vWord k =>
    cases r' <;> simp only [Reg.read, Reg.write] <;> try rfl
    rename_i k'
    have : k.val ≠ k'.val := fun e => hne (by rw [Fin.ext e])
    simp [Vector.getElem_set_ne, this]
  case bWord k =>
    cases r' <;> simp only [Reg.read, Reg.write] <;> try rfl
    rename_i k'
    have : k.val ≠ k'.val := fun e => hne (by rw [Fin.ext e])
    simp [Vector.getElem_set_ne, this]
  all_goals cases r' <;> simp at hne <;> rfl

/-- IE is bit 0 of CTRL, and SRST reads 0 (10_state.md R24). -/
@[simp] theorem ctrlWord_ie (s : State) : s.ctrlWord.getLsbD 0 = s.ie := by
  simp only [State.ctrlWord]
  cases s.ie <;> rfl

@[simp] theorem ctrlWord_srst (s : State) : s.ctrlWord.getLsbD 1 = false := by
  simp only [State.ctrlWord]
  cases s.ie <;> rfl

/-- Bit i of PINF is the tag of P[i] (10_state.md R34). -/
theorem pinfWord_getLsbD (s : State) (i : Fin 4) : s.pinfWord.getLsbD i = s.p[i].inf := by
  have h : ∀ a b c d : Bool, ∀ k : Fin 4,
      (0#28 ++ BitVec.ofBool d ++ BitVec.ofBool c ++ BitVec.ofBool b ++ BitVec.ofBool a).getLsbD k =
        #v[a, b, c, d][k] := by decide
  rw [State.pinfWord, h]
  match i with
  | 0 => rfl
  | 1 => rfl
  | 2 => rfl
  | 3 => rfl

/-- Writing PINF as it reads changes nothing. -/
theorem writePinf_pinfWord (s : State) : s.writePinf s.pinfWord = s := by
  have h : s.p.mapFinIdx (fun i r _ => { r with inf := s.pinfWord.getLsbD i }) = s.p := by
    ext i hi
    have := pinfWord_getLsbD s ⟨i, hi⟩
    simp only [Fin.getElem_fin] at this
    simp [this]
  simp only [State.writePinf, h]

/-- A legal read, idle or of what is read truly while busy, returns what it reaches and changes nothing (20_memory.md
R70). -/
theorem hostRead_of_target {s : State} {off : BitVec 16} {w : Width} {t : Target} (hr : s.inReset = false)
    (ht : target s.dbuf.size off w = some t) (hb : s.engine = .idle ∨ t.readableWhileBusy = true) :
    hostRead off w s = (t.read s, s) := by
  rcases hb with hb | hb <;> simp [hostRead, hr, ht, hb, Engine.isBusy]

/-- A legal write, idle or to what takes a write while busy, is done to what it reaches (20_memory.md R70). -/
theorem hostWrite_of_target {s : State} {off : BitVec 16} {w : Width} {t : Target} (v : Word) (hr : s.inReset = false)
    (ht : target s.dbuf.size off w = some t) (hb : s.engine = .idle ∨ t.writableWhileBusy = true) :
    hostWrite off w v s = t.write v s := by
  rcases hb with hb | hb <;> simp [hostWrite, hr, ht, hb, Engine.isBusy]

/-- A legal write to anything else while busy is dropped and sets OVR (60_exceptions.md R216). -/
theorem hostWrite_dropped {s : State} {off : BitVec 16} {w : Width} {t : Target} {c : Word} (v : Word)
    (hr : s.inReset = false) (ht : target s.dbuf.size off w = some t) (hc : s.engine = .busy c)
    (hb : t.writableWhileBusy = false) : hostWrite off w v s = s.setOvr := by
  simp [hostWrite, hr, ht, hc, hb, Engine.isBusy]

/-- A legal read of anything else while busy returns a free value (60_exceptions.md R216). -/
theorem hostRead_free {s : State} {off : BitVec 16} {w : Width} {t : Target} {c : Word} (hr : s.inReset = false)
    (ht : target s.dbuf.size off w = some t) (hc : s.engine = .busy c) (hb : t.readableWhileBusy = false) :
    hostRead off w s = freeRead w s := by
  simp [hostRead, hr, ht, hc, hb, Engine.isBusy]

/-- A read of a register by its offset, idle or of one that is read truly while busy. -/
theorem hostRead_reg {s : State} (r : Reg) (hr : s.inReset = false)
    (hb : s.engine = .idle ∨ (Target.reg r).readableWhileBusy = true) :
    (hostRead (BitVec.ofNat 16 r.offset) .w32 s).1 = r.read s := by
  have h := r.offset_lt
  rw [hostRead_of_target hr (target_reg _ r (by rw [BitVec.toNat_ofNat]; omega)) hb]
  rfl

end Sys2Proof.Machine
end

