-- ==== Sys2Proof/Laws/Command.lean ====
section
/-! SUPPORT. What the shared end of a command can do, said once: `runCommand`, the bodies with errors, and `exec`. -/

namespace Sys2Proof.Machine

/-- A legal command whose body succeeds completes. -/
@[simp] theorem runCommand_ok (t s : State) : runCommand true (.ok t) s = .next t.complete := rfl

/-- A legal command whose body raises an error ends with that error. -/
@[simp] theorem runCommand_error (c : CmdError) (s : State) : runCommand true (.error c) s = .next (s.raiseCmdError c) := rfl

/-- A command with an operand that is not legal ends with ILLEGAL, whatever its body. -/
@[simp] theorem runCommand_illegal (r : Except CmdError State) (s : State) :
    runCommand false r s = .next (s.raiseCmdError .illegal) := rfl

/-- A command always has a next state. -/
theorem runCommand_next (l : Bool) (r : Except CmdError State) (s : State) : ∃ t, runCommand l r s = .next t := by
  unfold runCommand
  split
  · split <;> exact ⟨_, rfl⟩
  · exact ⟨_, rfl⟩

/-- All a command can do: complete with its body's state, or raise one error on the state it found. -/
theorem runCommand_cases {l : Bool} {r : Except CmdError State} {s t : State} (h : runCommand l r s = .next t) :
    (l = true ∧ ∃ u, r = .ok u ∧ t = u.complete) ∨ (l = true ∧ ∃ c, r = .error c ∧ t = s.raiseCmdError c) ∨
      (l = false ∧ t = s.raiseCmdError .illegal) := by
  unfold runCommand at h
  split at h
  · rename_i hl
    split at h
    · exact .inl ⟨hl, _, rfl, by simpa using h.symm⟩
    · exact .inr (.inl ⟨hl, _, rfl, by simpa using h.symm⟩)
  · rename_i hl
    exact .inr (.inr ⟨by simpa using hl, by simpa using h.symm⟩)

/-- `klen` as the number of 10_state.md R32. -/
theorem State.klen_eq (s : State) : s.klen = s.klenHi.toNat * 2 ^ 32 + s.klenLo.toNat := by
  rw [State.klen, BitVec.toNat_append, Nat.shiftLeft_eq, ← Nat.mul_comm (2 ^ 32), ← Nat.two_pow_add_eq_or_of_lt s.klenLo.isLt]

/-- The result of PSTORE's body, case by case (R150). -/
theorem pstoreBody_cases {a : Nibble} {s t : State} (h : pstoreBody a s = .ok t) :
    (s.readTriple a).inf = false ∧ s.dst.toNat + 64 ≤ s.dbuf.size ∧
      t = s.memWrite s.dst.toNat (encodePoint (s.readTriple a).x (s.readTriple a).y) := by
  unfold pstoreBody at h
  split at h
  · simp at h
  · split at h
    · rename_i h1 h2
      exact ⟨by simpa using h1, by simpa [Memory.inRange] using h2, by simpa using h.symm⟩
    · simp at h

/-- The result of PLOAD's body (R151). -/
theorem ploadBody_cases {d : Nibble} {s t : State} (h : ploadBody d s = .ok t) :
    s.src.toNat + 64 ≤ s.dbuf.size ∧ t = s.writeP d (decodePoint (s.memRead s.src.toNat 64)) := by
  unfold ploadBody at h
  split at h
  · rename_i h1
    exact ⟨by simpa [Memory.inRange] using h1, by simpa using h.symm⟩
  · simp at h

/-- The result of HASH's body (R182). -/
theorem hashBody_cases {s t : State} (h : hashBody s = .ok t) :
    s.src.toNat + s.len.toNat ≤ s.dbuf.size ∧ s.dst.toNat + 32 ≤ s.dbuf.size ∧
      t = { s.memWrite s.dst.toNat (Sm3.digest (Sm3.hashState (s.memRead s.src.toNat s.len.toNat))) with
            v := Sm3.hashState (s.memRead s.src.toNat s.len.toNat) } := by
  unfold hashBody at h
  split at h
  · simp at h
  · split at h
    · simp at h
    · rename_i h1 h2
      exact ⟨by simpa [Memory.inRange] using h1, by simpa [Memory.inRange] using h2, by simpa using h.symm⟩

/-- The result of KDF's body (R209). -/
theorem kdfBody_cases {s t : State} (h : kdfBody s = .ok t) :
    s.klen < Kdf.lengthLimit ∧ s.src.toNat + s.len.toNat ≤ s.dbuf.size ∧
      s.dst.toNat + (s.klen + 7) / 8 ≤ s.dbuf.size ∧
      t = ({ s.memWrite s.dst.toNat (Kdf.output (s.memRead s.src.toNat s.len.toNat) s.klen) with
            ct := Kdf.counter (s.memRead s.src.toNat s.len.toNat) s.klen }.setZF
          (Kdf.allZero (Kdf.output (s.memRead s.src.toNat s.len.toNat) s.klen))) := by
  unfold kdfBody at h
  split at h
  · simp at h
  · split at h
    · simp at h
    · split at h
      · simp at h
      · rename_i h1 h2 h3
        exact ⟨by simpa using h1, by simpa [Memory.inRange] using h2, by simpa [Memory.inRange] using h3,
          by simpa using h.symm⟩

/-- What a command does once its fields are legal: the state with its results, or its error. -/
def bodyOf (s : State) : Instr → Except CmdError State
  | .nop => .ok s
  | .fldc d c => .ok (s.writeF d (curveConst c))
  | .fmov d a => .ok (s.writeF d (s.readF a))
  | .madd d a b => .ok (s.writeF d (addP (s.readF a) (s.readF b)))
  | .msub d a b => .ok (s.writeF d (subP (s.readF a) (s.readF b)))
  | .mmul d a b => .ok (s.writeF d (mulP (s.readF a) (s.readF b)))
  | .minv d a => .ok (s.writeF d (BitVec.ofNat 256 (invP (s.readF a).toNat)))
  | .pldg d => .ok (s.writeP d (.finite (BitVec.ofNat 256 Rom.gx) (BitVec.ofNat 256 Rom.gy)))
  | .psetinf d => .ok (s.writeP d .infinity)
  | .pmov d a => .ok (s.writeTriple d (s.readTriple a))
  | .pset d a b => .ok (s.writeP d (.finite (s.readF a) (s.readF b)))
  | .fgetx d a => .ok (s.writeF d (s.readTriple a).x)
  | .fgety d a => .ok (s.writeF d (s.readTriple a).y)
  | .pneg d a => .ok (s.writeP d (s.readCanon a).negate)
  | .padd d a b => .ok (s.writeP d ((s.readCanon a).add (s.readCanon b)))
  | .pdbl d a => .ok (s.writeP d (s.readCanon a).double)
  | .pmul d a b => .ok (s.writeP d (Point.smul (s.readF a) (s.readCanon b)))
  | .pchk a => .ok (s.setT (s.readCanon a).onCurve)
  | .pstore a => pstoreBody a s
  | .pload d => ploadBody d s
  | .hinit => .ok { s with v := Rom.sm3Iv }
  | .hcomp => .ok { s with v := Sm3.compress s.v s.b.toList }
  | .hash => hashBody s
  | .kdf => kdfBody s

/-- Every command is the shared end of a command around its body, and its legality is well-formedness. -/
theorem exec_eq_runCommand (i : Instr) (s : State) : exec i s = runCommand i.wf (bodyOf s i) s := by
  cases i <;> rfl

/-- All a command can do: complete with the state its body gives, or raise one error on the state it found. -/
theorem exec_cases {i : Instr} {s t : State} (h : exec i s = .next t) :
    (i.wf = true ∧ ∃ u, bodyOf s i = .ok u ∧ t = u.complete) ∨
      ∃ c, (i.wf = true ∧ bodyOf s i = .error c ∨ i.wf = false ∧ c = .illegal) ∧ t = s.raiseCmdError c := by
  rw [exec_eq_runCommand] at h
  obtain ⟨hl, u, hu, rfl⟩ | ⟨hl, c, hc, rfl⟩ | ⟨hl, rfl⟩ := runCommand_cases h
  · exact .inl ⟨hl, u, hu, rfl⟩
  · exact .inr ⟨c, .inl ⟨hl, hc⟩, rfl⟩
  · exact .inr ⟨_, .inr ⟨hl, rfl⟩, rfl⟩

/-- What no command's body writes. -/
structure BodyFrame (s u : State) : Prop where
  engine : u.engine = s.engine
  done : u.status.done = s.status.done
  err : u.status.err = s.status.err
  errcode : u.status.errcode = s.status.errcode
  ovr : u.status.ovr = s.status.ovr
  berr : u.status.berr = s.status.berr
  ie : u.ie = s.ie
  cmd : u.cmd = s.cmd
  src : u.src = s.src
  dst : u.dst = s.dst
  len : u.len = s.len
  klenLo : u.klenLo = s.klenLo
  klenHi : u.klenHi = s.klenHi
  b : u.b = s.b
  size : u.dbuf.size = s.dbuf.size
  draw : u.dbuf.draw = s.dbuf.draw
  inReset : u.inReset = s.inReset
  rdata : u.rdata = s.rdata
  events : u.events = s.events
  draws : u.draws = s.draws

theorem bodyFrame_writeF (s : State) (d : Nibble) (x : U256) : BodyFrame s (s.writeF d x) := by constructor <;> rfl
theorem bodyFrame_writeTriple (s : State) (d : Nibble) (r : PointReg) : BodyFrame s (s.writeTriple d r) := by
  constructor <;> rfl
theorem bodyFrame_writeP (s : State) (d : Nibble) (q : Point) : BodyFrame s (s.writeP d q) := bodyFrame_writeTriple s d _

/-- A body that succeeds leaves all that alone. -/
theorem bodyFrame_of_ok {i : Instr} {s u : State} (h : bodyOf s i = .ok u) : BodyFrame s u := by
  cases i
  case nop | pchk | hinit | hcomp => cases h; constructor <;> rfl
  case pstore => obtain ⟨-, -, rfl⟩ := pstoreBody_cases h; constructor <;> simp
  case pload => obtain ⟨-, rfl⟩ := ploadBody_cases h; exact bodyFrame_writeP _ _ _
  case hash => obtain ⟨-, -, rfl⟩ := hashBody_cases h; constructor <;> simp
  case kdf => obtain ⟨-, -, -, rfl⟩ := kdfBody_cases h; constructor <;> simp
  all_goals
    cases h
    first
      | exact bodyFrame_writeF _ _ _
      | exact bodyFrame_writeP _ _ _
      | exact bodyFrame_writeTriple _ _ _

/-- The legality guards of the meanings are the classes of well-formedness. -/
theorem legalF_eq (x : Nibble) : legalF x = isF x := rfl
theorem legalP_eq (x : Nibble) : legalP x = isP x := rfl
theorem legalC_eq (x : Nibble) : legalC x = isC x := rfl

/-- Register numbers of legal fields. -/
theorem fIndex_val {x : Nibble} (h : x.toNat < 8) : (fIndex x).val = x.toNat := Nat.mod_eq_of_lt h
theorem pIndex_val {x : Nibble} (h : x.toNat < 4) : (pIndex x).val = x.toNat := Nat.mod_eq_of_lt h

@[simp] theorem readF_writeF_self (s : State) (i : Nibble) (x : U256) : (s.writeF i x).readF i = x := by
  simp [State.readF, State.writeF]

theorem readF_writeF_of_ne (s : State) {i j : Nibble} (x : U256) (h : fIndex i ≠ fIndex j) :
    (s.writeF j x).readF i = s.readF i := by
  have : (fIndex j).val ≠ (fIndex i).val := fun e => h (Fin.ext e.symm)
  simp [State.readF, State.writeF, Vector.getElem_set_ne, this]

@[simp] theorem readTriple_writeTriple_self (s : State) (i : Nibble) (r : PointReg) :
    (s.writeTriple i r).readTriple i = r := by
  simp [State.readTriple, State.writeTriple]

theorem readTriple_writeTriple_of_ne (s : State) {i j : Nibble} (r : PointReg) (h : pIndex i ≠ pIndex j) :
    (s.writeTriple j r).readTriple i = s.readTriple i := by
  have : (pIndex j).val ≠ (pIndex i).val := fun e => h (Fin.ext e.symm)
  simp [State.readTriple, State.writeTriple, Vector.getElem_set_ne, this]

end Sys2Proof.Machine
end

