-- ==== Sys2Proof/Laws/Curve.lean ====
section
/-! SUPPORT. The point functions: the third point of a line, both slopes as the powers they are defined by, sums stay
reduced, and double-and-add as a fold over the bits of the scalar. -/

namespace Sys2Proof.Machine

/-- The third point of a line, as integers (41_curve.md R133). -/
theorem chord_spec (l x1 y1 x2 : Nat) : ∃ x3 y3 : U256, chord l x1 y1 x2 = .finite x3 y3 ∧
    (x3.toNat : Int) = ((l : Int) ^ 2 - (x1 : Int) - (x2 : Int)) % (Rom.p : Int) ∧
    (y3.toNat : Int) = ((l : Int) * ((x1 : Int) - (x3.toNat : Int)) - (y1 : Int)) % (Rom.p : Int) := by
  refine ⟨_, _, rfl, ?_, ?_⟩
  · rw [toNat_ofNat_of_lt_p (modP_lt _), modP_cast]
  · rw [toNat_ofNat_of_lt_p (modP_lt _), modP_cast, toNat_ofNat_of_lt_p (modP_lt _)]

/-- The inverse of a natural number as an integer. -/
theorem invP_natCast (v : Nat) : (invP v : Int) = (v : Int) ^ (Rom.p - 2) % (Rom.p : Int) := by
  rw [invP_eq, Int.natCast_mod, Nat.cast_pow]

/-- The inverse of an integer, reduced or not. -/
theorem invP_modP (v : Int) : (invP (modP v) : Int) = v ^ (Rom.p - 2) % (Rom.p : Int) := by
  rw [invP_natCast, modP_cast]
  exact (Int.mod_modEq _ _).pow _

theorem tangentSlope_cast (x1 y1 : Nat) : (tangentSlope x1 y1 : Int) =
    (3 * (x1 : Int) ^ 2 + (Rom.a : Int)) * (invP (2 * y1) : Int) % (Rom.p : Int) := by
  rw [tangentSlope, Int.natCast_mod, Nat.cast_mul, Nat.cast_add, Nat.cast_mul, Nat.cast_pow]
  rfl

theorem lineSlope_cast (x1 y1 x2 y2 : Nat) : (lineSlope x1 y1 x2 y2 : Int) =
    ((y2 : Int) - (y1 : Int)) * (invP (modP ((x2 : Int) - (x1 : Int))) : Int) % (Rom.p : Int) := modP_cast _

/-- The sum of reduced points is reduced. -/
theorem Point.isCanon_add {q r : Point} (hq : q.isCanon) (hr : r.isCanon) : (q.add r).isCanon := by
  cases q with
  | infinity => exact hr
  | finite x1 y1 =>
    cases r with
    | infinity => exact hq
    | finite x2 y2 =>
      simp only [Point.add]
      split
      · split
        · exact isCanon_chord _ _ _ _
        · trivial
      · exact isCanon_chord _ _ _ _

@[simp] theorem Point.infinity_add (q : Point) : Point.add .infinity q = q := by cases q <;> rfl

@[simp] theorem Point.add_infinity (q : Point) : Point.add q .infinity = q := by cases q <;> rfl

/-- Double-and-add as a fold over the bit numbers. -/
theorem smulLoop_eq_foldl (k : U256) (n i : Nat) (r a : Point) : smulLoop k n i r a =
    ((List.range' i n).foldl
      (fun (ra : Point × Point) i => (if k.getLsbD i then ra.1.add ra.2 else ra.1, ra.2.add ra.2)) (r, a)).1 := by
  induction n generalizing i r a with
  | zero => rfl
  | succ n ih =>
    rw [smulLoop, ih]
    rfl

/-- Rounds over zero bits leave the accumulator alone. -/
theorem smulLoop_of_zero_bits (k : U256) (n i : Nat) (r a : Point) (h : ∀ j, i ≤ j → k.getLsbD j = false) :
    smulLoop k n i r a = r := by
  induction n generalizing i r a with
  | zero => rfl
  | succ n ih => rw [smulLoop, h i le_rfl, if_neg (by simp), ih _ _ _ fun j hj => h j (by omega)]

/-- `m + n` rounds are `m` rounds and then `n` rounds. -/
theorem smulLoop_add (k : U256) (m n i : Nat) (r a : Point) :
    ∃ a', smulLoop k (m + n) i r a = smulLoop k n (i + m) (smulLoop k m i r a) a' := by
  induction m generalizing i r a with
  | zero => exact ⟨a, by simp [smulLoop]⟩
  | succ m ih =>
    obtain ⟨a', h⟩ := ih (i + 1) (if k.getLsbD i then r.add a else r) (a.add a)
    refine ⟨a', ?_⟩
    rw [show m + 1 + n = (m + n) + 1 by omega, smulLoop, h, smulLoop, show i + 1 + m = i + (m + 1) by omega]

/-- A scalar below 2^m needs m rounds only. -/
theorem smul_eq_smulLoop (k : U256) (q : Point) (m : Nat) (hm : m ≤ 256) (hk : k.toNat < 2 ^ m) :
    Point.smul k q = smulLoop k m 0 .infinity q := by
  obtain ⟨a', h⟩ := smulLoop_add k m (256 - m) 0 .infinity q
  rw [show m + (256 - m) = 256 by omega] at h
  rw [Point.smul, h, smulLoop_of_zero_bits]
  intro j hj
  rw [BitVec.getLsbD, Nat.testBit_lt_two_pow]
  exact lt_of_lt_of_le hk (Nat.pow_le_pow_right (by norm_num) (by omega))

/-- Double-and-add on reduced points gives a reduced point. -/
theorem isCanon_smulLoop (k : U256) (n i : Nat) {r a : Point} (hr : r.isCanon) (ha : a.isCanon) :
    (smulLoop k n i r a).isCanon := by
  induction n generalizing i r a with
  | zero => exact hr
  | succ n ih =>
    rw [smulLoop]
    refine ih _ ?_ (Point.isCanon_add ha ha)
    split
    · exact Point.isCanon_add hr ha
    · exact hr

end Sys2Proof.Machine
end

