-- ==== Sys2Proof/Laws/Decode.lean ====
section
/-! SUPPORT. The fields of a packed word, the word from its fields, and the opcode map looked up by opcode. -/

namespace Sys2Proof

@[simp] theorem opField_packWord (op : BitVec 8) (d a b : Nibble) : opField (packWord op d a b) = op := by
  ext i hi
  simp only [opField, packWord, BitVec.getElem_extractLsb', BitVec.getLsbD_append]
  simp [hi]

@[simp] theorem rdField_packWord (op : BitVec 8) (d a b : Nibble) : rdField (packWord op d a b) = d := by
  ext i hi
  simp only [rdField, packWord, BitVec.getElem_extractLsb', BitVec.getLsbD_append]
  simp [show ¬ 8 + i < 8 by omega, show 8 + i - 8 = i by omega, hi]

@[simp] theorem raField_packWord (op : BitVec 8) (d a b : Nibble) : raField (packWord op d a b) = a := by
  ext i hi
  simp only [raField, packWord, BitVec.getElem_extractLsb', BitVec.getLsbD_append]
  simp [show ¬ 12 + i < 8 by omega, show ¬ 12 + i - 8 < 4 by omega, show 12 + i - 8 - 4 = i by omega, hi]

@[simp] theorem rbField_packWord (op : BitVec 8) (d a b : Nibble) : rbField (packWord op d a b) = b := by
  ext i hi
  simp only [rbField, packWord, BitVec.getElem_extractLsb', BitVec.getLsbD_append]
  simp [show ¬ 16 + i < 8 by omega, show ¬ 16 + i - 8 < 4 by omega, show ¬ 16 + i - 8 - 4 < 4 by omega,
    show 16 + i - 8 - 4 - 4 = i by omega, hi]

@[simp] theorem rsvField_packWord (op : BitVec 8) (d a b : Nibble) : rsvField (packWord op d a b) = 0#12 := by
  ext i hi
  simp only [rsvField, packWord, BitVec.getElem_extractLsb', BitVec.getLsbD_append]
  simp [show ¬ 20 + i < 8 by omega, show ¬ 20 + i - 8 < 4 by omega, show ¬ 20 + i - 8 - 4 < 4 by omega,
    show ¬ 20 + i - 8 - 4 - 4 < 4 by omega]

/-- The fields of a word as numbers. -/
theorem opField_toNat (c : Word) : (opField c).toNat = c.toNat % 2 ^ 8 := by simp [opField]

theorem rdField_toNat (c : Word) : (rdField c).toNat = c.toNat / 2 ^ 8 % 2 ^ 4 := by
  simp [rdField, Nat.shiftRight_eq_div_pow]

theorem raField_toNat (c : Word) : (raField c).toNat = c.toNat / 2 ^ 12 % 2 ^ 4 := by
  simp [raField, Nat.shiftRight_eq_div_pow]

theorem rbField_toNat (c : Word) : (rbField c).toNat = c.toNat / 2 ^ 16 % 2 ^ 4 := by
  simp [rbField, Nat.shiftRight_eq_div_pow]

theorem rsvField_toNat (c : Word) : (rsvField c).toNat = c.toNat / 2 ^ 20 := by
  have := c.isLt
  simp [rsvField, Nat.shiftRight_eq_div_pow]
  omega

/-- A packed word as a number: the sum of R95. -/
theorem packWord_toNat (op : BitVec 8) (d a b : Nibble) :
    (packWord op d a b).toNat = op.toNat + d.toNat * 2 ^ 8 + a.toNat * 2 ^ 12 + b.toNat * 2 ^ 16 := by
  have h1 := opField_toNat (packWord op d a b)
  have h2 := rdField_toNat (packWord op d a b)
  have h3 := raField_toNat (packWord op d a b)
  have h4 := rbField_toNat (packWord op d a b)
  have h5 := rsvField_toNat (packWord op d a b)
  simp only [opField_packWord, rdField_packWord, raField_packWord, rbField_packWord, rsvField_packWord] at h1 h2 h3 h4 h5
  have h6 : (0#12 : BitVec 12).toNat = 0 := rfl
  omega

/-- A word with RSV = 0 is packed of its fields. -/
theorem packWord_fields {c : Word} (h : rsvField c = 0#12) :
    packWord (opField c) (rdField c) (raField c) (rbField c) = c := by
  apply BitVec.eq_of_toNat_eq
  have h5 := rsvField_toNat c
  rw [h] at h5
  have h6 : (0#12 : BitVec 12).toNat = 0 := rfl
  rw [packWord_toNat, opField_toNat, rdField_toNat, raField_toNat, rbField_toNat]
  omega

/-- Rows of the opcode map have different opcodes. -/
theorem opTable_ops_distinct : (opTable.map OpRow.op).Nodup := by decide

/-- What a decoded word is: a row of the map, its opcode, legal operands and RSV = 0. -/
theorem decode_ok_row {c : Word} {i : Instr} (h : decode c = .ok i) :
    ∃ r ∈ opTable, r.op = opField c ∧ rsvField c = 0#12 ∧ r.rd.admits (rdField c) = true ∧
      r.ra.admits (raField c) = true ∧ r.rb.admits (rbField c) = true ∧
      i = r.make (rdField c) (raField c) (rbField c) := by
  unfold decode at h
  split at h
  · simp at h
  · rename_i r hr
    have hm := List.mem_of_find?_eq_some hr
    have ho := List.find?_some hr
    split at h <;> try simp at h
    split at h <;> try simp at h
    split at h <;> try simp at h
    split at h <;> try simp at h
    rename_i h1 h2 h3 h4
    exact ⟨r, hm, by simpa using ho, by simpa using h1, by simpa using h2, by simpa using h3, by simpa using h4, h.symm⟩

/-- A word with a row's opcode, legal operands and RSV = 0 decodes to that row's command. -/
theorem decode_of_row {c : Word} {r : OpRow} (hr : opTable.find? (fun r => r.op == opField c) = some r)
    (h0 : rsvField c = 0#12) (h1 : r.rd.admits (rdField c) = true) (h2 : r.ra.admits (raField c) = true)
    (h3 : r.rb.admits (rbField c) = true) : decode c = .ok (r.make (rdField c) (raField c) (rbField c)) := by
  simp [decode, hr, h0, h1, h2, h3]

end Sys2Proof
end

