-- ==== Sys2Proof/Laws/Kdf.lean ====
section
/-! SUPPORT. Lengths in the SM3 engine and the KDF unit, and the KDF's counter. -/

namespace Sys2Proof.Machine

@[simp] theorem Sm3.digest_length (v : Vector Word 8) : (Sm3.digest v).length = 32 := by
  obtain ⟨l, hl⟩ := v
  simp only [Sm3.digest]
  have : ∀ l : List Word, (l.flatMap fun x => beBytes 4 x.toNat).length = 4 * l.length := by
    intro l
    induction l with
    | nil => rfl
    | cons x rest ih => simp only [List.flatMap_cons, List.length_append, beBytes_length, ih, List.length_cons]; omega
  rw [this]
  simp [Vector.toList, hl]

@[simp] theorem Sm3.hash_length (m : List Byte) : (Sm3.hash m).length = 32 := Sm3.digest_length _

@[simp] theorem Kdf.loop_length (z : List Byte) (n : Nat) (k : List Byte) (ct : Word) :
    (Kdf.loop z n k ct).1.length = k.length + 32 * n := by
  induction n generalizing k ct with
  | zero => simp [Kdf.loop]
  | succ n ih => simp [Kdf.loop, ih]; omega

/-- The counter after n rounds. -/
theorem Kdf.loop_counter (z : List Byte) (n : Nat) (k : List Byte) (ct : Word) :
    (Kdf.loop z n k ct).2 = ct + BitVec.ofNat 32 n := by
  induction n generalizing k ct with
  | zero => simp [Kdf.loop]
  | succ n ih =>
    rw [Kdf.loop, ih, BitVec.ofNat_add, BitVec.add_assoc, BitVec.add_comm (BitVec.ofNat 32 n)]
    rfl

/-- Truncation keeps the length of the bytes it takes. -/
theorem Kdf.truncate_length (k : List Byte) (klen : Nat) :
    (Kdf.truncate k klen).length = min ((klen + 7) / 8) k.length := by
  unfold Kdf.truncate
  simp only
  split
  · rename_i h
    rw [List.getLast?_eq_none_iff] at h
    have := congrArg List.length h
    simpa using this.symm
  · rename_i x h
    have hne : k.take ((klen + 7) / 8) ≠ [] := by
      intro e
      simp [e] at h
    have := List.length_pos_of_ne_nil hne
    simp only [List.length_append, List.length_dropLast, List.length_singleton]
    rw [← List.length_take]
    omega

/-- The key bytes after n rounds: the digests of Z with the counters from `ct` on. -/
theorem Kdf.loop_bytes (z : List Byte) (n : Nat) (k : List Byte) (ct : Word) :
    (Kdf.loop z n k ct).1 = k ++ (List.range n).flatMap fun i => Sm3.hash (z ++ beBytes 4 (ct + BitVec.ofNat 32 i).toNat) := by
  induction n generalizing k ct with
  | zero => simp [Kdf.loop]
  | succ n ih =>
    have h0 : ct + BitVec.ofNat 32 0 = ct := by simp
    have hs : ∀ i, ct + 1 + BitVec.ofNat 32 i = ct + BitVec.ofNat 32 (i + 1) := fun i => by
      rw [BitVec.ofNat_add, BitVec.add_assoc, BitVec.add_comm (BitVec.ofNat 32 i)]
      rfl
    rw [Kdf.loop, ih, List.range_succ_eq_map, List.flatMap_cons, List.flatMap_map, List.append_assoc, h0]
    simp only [hs, Nat.succ_eq_add_one]

/-- Byte j of strings of length 32 put one after another. -/
theorem getD_flatMap_32 (g : Nat → List Byte) (hg : ∀ i, (g i).length = 32) (n j : Nat) (h : j < 32 * n) :
    ((List.range n).flatMap g).getD j 0 = (g (j / 32)).getD (j % 32) 0 := by
  have hl : ∀ n, ((List.range n).flatMap g).length = 32 * n := by
    intro n
    induction n with
    | zero => rfl
    | succ n ih => simp [List.range_succ, ih, hg]; omega
  induction n with
  | zero => omega
  | succ n ih =>
    rw [List.range_succ, List.flatMap_append, List.flatMap_singleton]
    simp only [List.getD_eq_getElem?_getD, List.getElem?_append, hl] at ih ⊢
    split
    · rename_i h1
      exact ih h1
    · rename_i h1
      rw [show j - 32 * n = j % 32 by omega, show n = j / 32 by omega]

/-- Byte j of the key bytes (43_kdf.md R200). -/
theorem Kdf.expand_getD (z : List Byte) (klen j : Nat) (h : j < 32 * ((klen + 255) / 256)) :
    (Kdf.expand z klen).1.getD j 0 =
      (Sm3.hash (z ++ beBytes 4 ((1 + j / 32) % 2 ^ 32))).getD (j % 32) 0 := by
  rw [Kdf.expand, Kdf.loop_bytes, List.nil_append, getD_flatMap_32 _ (fun i => Sm3.hash_length _) _ _ h]
  congr 4
  simp

@[simp] theorem Kdf.expand_length (z : List Byte) (klen : Nat) :
    (Kdf.expand z klen).1.length = 32 * ((klen + 255) / 256) := by
  simp [Kdf.expand]

/-- The output has ⌈klen/8⌉ bytes. -/
@[simp] theorem Kdf.output_length (z : List Byte) (klen : Nat) : (Kdf.output z klen).length = (klen + 7) / 8 := by
  rw [Kdf.output, Kdf.truncate_length, Kdf.expand_length]
  omega

theorem Kdf.clearLow_getLsbD (n : Nat) (x : Byte) (i : Nat) (hi : i < 8) :
    (Kdf.clearLow n x).getLsbD i = (decide (n ≤ i) && x.getLsbD i) := by
  simp only [Kdf.clearLow, BitVec.getLsbD_shiftLeft, BitVec.getLsbD_ushiftRight]
  by_cases h : n ≤ i
  · simp [h, hi]
  · simp [h]

/-- Bit q of byte j of a truncation: the bit of the key bytes below klen, 0 from there on (43_kdf.md R201). -/
theorem Kdf.truncate_getLsbD (k : List Byte) (klen j q : Nat) (hk : klen ≤ 8 * k.length) (hj : j < (klen + 7) / 8)
    (hq : q < 8) :
    ((Kdf.truncate k klen).getD j 0).getLsbD (7 - q) = (decide (8 * j + q < klen) && (k.getD j 0).getLsbD (7 - q)) := by
  have hlen : (k.take ((klen + 7) / 8)).length = (klen + 7) / 8 := by simp; omega
  have hgl : (k.take ((klen + 7) / 8)).getLast? = some (k.getD ((klen + 7) / 8 - 1) 0) := by
    rw [List.getLast?_eq_getElem?, hlen, List.getElem?_take_of_lt (by omega), List.getD_eq_getElem?_getD,
      List.getElem?_eq_getElem (by omega)]
    rfl
  unfold Kdf.truncate
  simp only [hgl, List.getD_eq_getElem?_getD, List.getElem?_append, List.length_dropLast, hlen]
  split
  · rename_i h
    rw [List.getElem?_dropLast, hlen, if_pos h, List.getElem?_take_of_lt (by omega)]
    simp [show 8 * j + q < klen by omega]
  · have he : j = (klen + 7) / 8 - 1 := by omega
    rw [← he, Nat.sub_self]
    simp only [List.getElem?_cons_zero, Option.getD_some]
    rw [Kdf.clearLow_getLsbD _ _ _ (by omega)]
    congr 1
    simp only [decide_eq_decide]
    omega

/-- The counter KDF leaves (43_kdf.md R204). -/
theorem Kdf.counter_eq (z : List Byte) (klen : Nat) :
    Kdf.counter z klen = BitVec.ofNat 32 ((klen + 255) / 256 + 1) := by
  rw [Kdf.counter, Kdf.expand, Kdf.loop_counter, BitVec.ofNat_add, BitVec.add_comm]
  rfl

end Sys2Proof.Machine
end

