-- ==== Sys2Proof/Laws/PerInstr.lean ====
section
/-! SUPPORT. A statement made of every command: its word has RSV = 0 (30_encoding.md rules R90, R95). -/

namespace Sys2Proof.Laws.ReservedZero

/-- The word of the command has no reserved bit set. -/
def Statement (i : Instr) : Prop := rsvField (encode i) = 0#12

theorem nop : Statement .nop := rsvField_packWord _ _ _ _
theorem fldc (d c : Nibble) : Statement (.fldc d c) := rsvField_packWord _ _ _ _
theorem fmov (d a : Nibble) : Statement (.fmov d a) := rsvField_packWord _ _ _ _
theorem madd (d a b : Nibble) : Statement (.madd d a b) := rsvField_packWord _ _ _ _
theorem msub (d a b : Nibble) : Statement (.msub d a b) := rsvField_packWord _ _ _ _
theorem mmul (d a b : Nibble) : Statement (.mmul d a b) := rsvField_packWord _ _ _ _
theorem minv (d a : Nibble) : Statement (.minv d a) := rsvField_packWord _ _ _ _
theorem pldg (d : Nibble) : Statement (.pldg d) := rsvField_packWord _ _ _ _
theorem psetinf (d : Nibble) : Statement (.psetinf d) := rsvField_packWord _ _ _ _
theorem pmov (d a : Nibble) : Statement (.pmov d a) := rsvField_packWord _ _ _ _
theorem pset (d a b : Nibble) : Statement (.pset d a b) := rsvField_packWord _ _ _ _
theorem fgetx (d a : Nibble) : Statement (.fgetx d a) := rsvField_packWord _ _ _ _
theorem fgety (d a : Nibble) : Statement (.fgety d a) := rsvField_packWord _ _ _ _
theorem pneg (d a : Nibble) : Statement (.pneg d a) := rsvField_packWord _ _ _ _
theorem padd (d a b : Nibble) : Statement (.padd d a b) := rsvField_packWord _ _ _ _
theorem pdbl (d a : Nibble) : Statement (.pdbl d a) := rsvField_packWord _ _ _ _
theorem pmul (d a b : Nibble) : Statement (.pmul d a b) := rsvField_packWord _ _ _ _
theorem pchk (a : Nibble) : Statement (.pchk a) := rsvField_packWord _ _ _ _
theorem pstore (a : Nibble) : Statement (.pstore a) := rsvField_packWord _ _ _ _
theorem pload (d : Nibble) : Statement (.pload d) := rsvField_packWord _ _ _ _
theorem hinit : Statement .hinit := rsvField_packWord _ _ _ _
theorem hcomp : Statement .hcomp := rsvField_packWord _ _ _ _
theorem hash : Statement .hash := rsvField_packWord _ _ _ _
theorem kdf : Statement .kdf := rsvField_packWord _ _ _ _

end Sys2Proof.Laws.ReservedZero
end

