-- ==== Sys2Proof/Laws/Sm3.lean ====
section
/-! SUPPORT. The SM3 engine: the rotation is Lean's, the schedule word by word, the rounds and the chaining of blocks as
sequences. -/

namespace Sys2Proof.Machine.Sm3

/-- The rotation of 00_scope.md R11 is the library's. -/
theorem rotl_eq_rotateLeft (x : Word) (k : Nat) : rotl x k = x.rotateLeft k := rfl

/-- The schedule after `n` words have been added. -/
theorem expand_fold (block : List Word) (n : Nat) (hb : block.length = 16) :
    let w := (List.range' 16 n).foldl (fun w i => w ++ [expandWord w i]) block
    w.length = 16 + n ∧ (∀ i < 16, w.getD i 0 = block.getD i 0) ∧
      ∀ i, 16 ≤ i → i < 16 + n → w.getD i 0 = expandWord w i := by
  induction n with
  | zero => simp [hb]; omega
  | succ n ih =>
    simp only at ih ⊢
    rw [List.range'_concat, List.foldl_append]
    simp only [List.foldl_cons, List.foldl_nil]
    generalize (List.range' 16 n).foldl (fun w i => w ++ [expandWord w i]) block = w at ih ⊢
    obtain ⟨hl, h1, h2⟩ := ih
    have hget : ∀ x i, i < 16 + n → (w ++ [x]).getD i 0 = w.getD i 0 := by
      intro x i hi
      simp [List.getD_eq_getElem?_getD, List.getElem?_append, hl, hi]
    have hexp : ∀ x i, 16 ≤ i → i ≤ 16 + n → expandWord (w ++ [x]) i = expandWord w i := by
      intro x i h16 hi
      simp only [expandWord]
      rw [hget _ _ (by omega), hget _ _ (by omega), hget _ _ (by omega), hget _ _ (by omega), hget _ _ (by omega)]
    refine ⟨by simp [hl]; omega, ?_, ?_⟩
    · intro i hi
      rw [hget _ _ (by omega), h1 i hi]
    · intro i h16 hi
      rw [hexp _ _ h16 (by omega)]
      by_cases he : i = 16 + n
      · subst he
        simp [List.getD_eq_getElem?_getD, hl]
      · rw [hget _ _ (by omega), h2 i h16 (by omega)]

/-- The message expansion (42_sm3.md R176): W[0..15] are the block, each later word follows from those before it. -/
theorem expand_spec (block : List Word) (hb : block.length = 16) :
    (expand block).length = 68 ∧ (∀ i < 16, (expand block).getD i 0 = block.getD i 0) ∧
      ∀ i, 16 ≤ i → i < 68 → (expand block).getD i 0 = expandWord (expand block) i :=
  expand_fold block 52 hb

/-- A fold over `0 .. n-1` as a sequence of values. -/
theorem foldl_range_seq {α : Type} (g : α → Nat → α) (x : α) (n : Nat) :
    ∃ v : Nat → α, v 0 = x ∧ (∀ i < n, v (i + 1) = g (v i) i) ∧ (List.range n).foldl g x = v n :=
  ⟨fun m => (List.range m).foldl g x, rfl, fun i _ => by simp [List.range_succ], rfl⟩

/-- The working registers round by round (42_sm3.md R177). -/
theorem rounds_seq (v : Vector Word 8) (block : List Word) : ∃ r : Nat → Regs,
    r 0 = { a := v[0], b := v[1], c := v[2], d := v[3], e := v[4], f := v[5], g := v[6], h := v[7] } ∧
      (∀ j < 64, r (j + 1) = round (expand block) (r j) j) ∧ rounds v block = r 64 :=
  foldl_range_seq _ _ 64

/-- The running state block by block (42_sm3.md R179). -/
theorem hashState_seq (m : List Byte) : ∃ v : Nat → Vector Word 8,
    v 0 = Rom.sm3Iv ∧ (∀ i < (pad m).length / 64, v (i + 1) = compress (v i) (blockWords (pad m) i)) ∧
      hashState m = v ((pad m).length / 64) :=
  foldl_range_seq (fun v i => compress v (blockWords (pad m) i)) Rom.sm3Iv _

/-- The length of the padded message. -/
theorem pad_length (m : List Byte) : (pad m).length = m.length + 9 + padZeros m.length := by
  simp [pad]
  omega

theorem pad_length_mod (m : List Byte) : (pad m).length % 64 = 0 := by
  rw [pad_length, padZeros]
  omega

/-- Word k of words written big-endian one after another. -/
theorem take_drop_flatMap (l : List Word) (k : Nat) (h : k < l.length) :
    ((l.flatMap fun x => beBytes 4 x.toNat).drop (4 * k)).take 4 = beBytes 4 l[k].toNat := by
  induction l generalizing k with
  | nil => simp at h
  | cons x rest ih =>
    cases k with
    | zero => simp
    | succ k =>
      have h4 : (4 * (k + 1)) = (beBytes 4 x.toNat).length + 4 * k := by simp; omega
      rw [List.flatMap_cons, h4, List.drop_append, List.drop_eq_nil_of_le (by omega), List.nil_append,
        Nat.add_sub_cancel_left]
      simpa using ih k (by simpa using h)

/-- The four bytes of word k of a digest. -/
theorem digest_word (v : Vector Word 8) (k : Fin 8) : intBe (((digest v).drop (4 * k)).take 4) = v[k].toNat := by
  have hk : k.val < v.toList.length := by simp
  rw [digest, take_drop_flatMap _ _ hk, intBe_beBytes 4 _ (by have := v.toList[k.val].isLt; omega)]
  simp

end Sys2Proof.Machine.Sm3
end

