-- ==== Sys2Proof/Tests/Slice0.lean ====
section
/-! SUPPORT. The model's own tests: ill-formed commands the check refuses, command words written out bit by bit, one step
of each command on the vectors of 95_test_vectors.md, host transfers, and states that meet the hypotheses of the
statements. -/

namespace Sys2Proof.Tests

-- One theorem at a time: many kernel evaluations waiting for one another would each hold a thread.
set_option Elab.async false

open Sys2Proof Sys2Proof.Machine Sys2Proof.Claims

/-! ### Well-formedness refuses each ill-formed operand (30_encoding.md R91) -/

theorem test_wf_fldc :
    Instr.wf (.fldc 8 0) = false ∧
      Instr.wf (.fldc 0 6) = false ∧
      Instr.wf (.fldc 7 5) = true := by decide

theorem test_wf_fmov :
    Instr.wf (.fmov 8 0) = false ∧
      Instr.wf (.fmov 0 8) = false ∧
      Instr.wf (.fmov 7 7) = true := by decide

theorem test_wf_madd :
    Instr.wf (.madd 8 0 0) = false ∧
      Instr.wf (.madd 0 8 0) = false ∧
      Instr.wf (.madd 0 0 8) = false ∧
      Instr.wf (.madd 7 7 7) = true := by decide

theorem test_wf_msub :
    Instr.wf (.msub 8 0 0) = false ∧
      Instr.wf (.msub 0 8 0) = false ∧
      Instr.wf (.msub 0 0 8) = false ∧
      Instr.wf (.msub 7 7 7) = true := by decide

theorem test_wf_mmul :
    Instr.wf (.mmul 8 0 0) = false ∧
      Instr.wf (.mmul 0 8 0) = false ∧
      Instr.wf (.mmul 0 0 8) = false ∧
      Instr.wf (.mmul 7 7 7) = true := by decide

theorem test_wf_minv :
    Instr.wf (.minv 8 0) = false ∧
      Instr.wf (.minv 0 8) = false ∧
      Instr.wf (.minv 7 7) = true := by decide

theorem test_wf_pldg : Instr.wf (.pldg 4) = false ∧
      Instr.wf (.pldg 3) = true := by decide

theorem test_wf_psetinf : Instr.wf (.psetinf 4) = false ∧
      Instr.wf (.psetinf 3) = true := by decide

theorem test_wf_pmov :
    Instr.wf (.pmov 4 0) = false ∧
      Instr.wf (.pmov 0 4) = false ∧
      Instr.wf (.pmov 3 3) = true := by decide

theorem test_wf_pset :
    Instr.wf (.pset 4 0 0) = false ∧
      Instr.wf (.pset 0 8 0) = false ∧
      Instr.wf (.pset 0 0 8) = false ∧
      Instr.wf (.pset 3 7 7) = true := by decide

theorem test_wf_fgetx :
    Instr.wf (.fgetx 8 0) = false ∧
      Instr.wf (.fgetx 0 4) = false ∧
      Instr.wf (.fgetx 7 3) = true := by decide

theorem test_wf_fgety :
    Instr.wf (.fgety 8 0) = false ∧
      Instr.wf (.fgety 0 4) = false ∧
      Instr.wf (.fgety 7 3) = true := by decide

theorem test_wf_pneg :
    Instr.wf (.pneg 4 0) = false ∧
      Instr.wf (.pneg 0 4) = false ∧
      Instr.wf (.pneg 3 3) = true := by decide

theorem test_wf_padd :
    Instr.wf (.padd 4 0 0) = false ∧
      Instr.wf (.padd 0 4 0) = false ∧
      Instr.wf (.padd 0 0 4) = false ∧
      Instr.wf (.padd 3 3 3) = true := by decide

theorem test_wf_pdbl :
    Instr.wf (.pdbl 4 0) = false ∧
      Instr.wf (.pdbl 0 4) = false ∧
      Instr.wf (.pdbl 3 3) = true := by decide

theorem test_wf_pmul :
    Instr.wf (.pmul 4 0 0) = false ∧
      Instr.wf (.pmul 0 8 0) = false ∧
      Instr.wf (.pmul 0 0 4) = false ∧
      Instr.wf (.pmul 3 7 3) = true := by decide

theorem test_wf_pchk : Instr.wf (.pchk 4) = false ∧
      Instr.wf (.pchk 3) = true := by decide

theorem test_wf_pstore : Instr.wf (.pstore 4) = false ∧
      Instr.wf (.pstore 3) = true := by decide

theorem test_wf_pload : Instr.wf (.pload 4) = false ∧
      Instr.wf (.pload 3) = true := by decide

/-! ### Words written out as RSV, RB, RA, RD, OP (30_encoding.md R90, R94) -/

theorem test_decode_nop : decode 0b00000000000000000000000000000000#32 = .ok .nop := by decide

theorem test_decode_fldc : decode 0b00000000000000000100010100000001#32 = .ok (.fldc 5 4) := by decide

theorem test_decode_fmov : decode 0b00000000000000000101001000000010#32 = .ok (.fmov 2 5) := by decide

theorem test_decode_madd : decode 0b00000000000000000001001000010000#32 = .ok (.madd 2 1 0) := by decide

theorem test_decode_msub : decode 0b00000000000000010100001100010001#32 = .ok (.msub 3 4 1) := by decide

theorem test_decode_mmul : decode 0b00000000000001110110010100010010#32 = .ok (.mmul 5 6 7) := by decide

theorem test_decode_minv : decode 0b00000000000000000010011100010011#32 = .ok (.minv 7 2) := by decide

theorem test_decode_pldg : decode 0b00000000000000000000001100100000#32 = .ok (.pldg 3) := by decide

theorem test_decode_psetinf : decode 0b00000000000000000000000100100001#32 = .ok (.psetinf 1) := by decide

theorem test_decode_pmov : decode 0b00000000000000000001001100100010#32 = .ok (.pmov 3 1) := by decide

theorem test_decode_pset : decode 0b00000000000001110110000100100011#32 = .ok (.pset 1 6 7) := by decide

theorem test_decode_fgetx : decode 0b00000000000000000011010100100100#32 = .ok (.fgetx 5 3) := by decide

theorem test_decode_fgety : decode 0b00000000000000000010010000100101#32 = .ok (.fgety 4 2) := by decide

theorem test_decode_pneg : decode 0b00000000000000000011001000100110#32 = .ok (.pneg 2 3) := by decide

theorem test_decode_padd : decode 0b00000000000000100001001100100111#32 = .ok (.padd 3 1 2) := by decide

theorem test_decode_pdbl : decode 0b00000000000000000011000100101000#32 = .ok (.pdbl 1 3) := by decide

theorem test_decode_pmul : decode 0b00000000000000110101001000101001#32 = .ok (.pmul 2 5 3) := by decide

theorem test_decode_pchk : decode 0b00000000000000000010000000101010#32 = .ok (.pchk 2) := by decide

theorem test_decode_pstore : decode 0b00000000000000000011000000101011#32 = .ok (.pstore 3) := by decide

theorem test_decode_pload : decode 0b00000000000000000000000100101100#32 = .ok (.pload 1) := by decide

theorem test_decode_hinit : decode 0b00000000000000000000000000110000#32 = .ok .hinit := by decide

theorem test_decode_hcomp : decode 0b00000000000000000000000000110001#32 = .ok .hcomp := by decide

theorem test_decode_hash : decode 0b00000000000000000000000000110010#32 = .ok .hash := by decide

theorem test_decode_kdf : decode 0b00000000000000000000000001000000#32 = .ok .kdf := by decide

/-- The illegal words EN-5 to EN-12 and EN-14 of 95_test_vectors.md, each refused for its reason. -/
theorem test_decode_illegal :
    decode 0x00006001 = .error .badRA ∧ decode 0x00000003 = .error .unknownOpcode ∧
    decode 0x00100000 = .error .reservedBits ∧ decode 0x00000420 = .error .badRD ∧
    decode 0x00000812 = .error .badRD ∧ decode 0x0000012A = .error .badRD ∧ decode 0x00000132 = .error .badRD ∧
    decode 0x000000FF = .error .unknownOpcode ∧ decode 0x00000729 = .error .badRD := by decide

theorem test_decode_unused_field : decode 0x00010002 = .error .badRB ∧ decode 0x00001030 = .error .badRA := by decide

theorem test_decodeTableWord : decodeTableWord 32 0x00010210 = some (.madd 2 0 1) ∧
    decodeTableWord 32 0x00000032 = some .hash ∧ decodeTableWord 32 0x00000003 = none := by decide

theorem test_encode_examples : encode (.madd 2 0 1) = 0x00010210 ∧ encode (.pstore 3) = 0x0000302B := by decide

/-! ### One step of each command (the vectors of 95_test_vectors.md, DBUF_SIZE = 4096) -/

/-- One step in which the word is executed as the next command. -/
def run (w : Nat) (s : State) : State :=
  match step (s.withFetchWord 32 w) with
  | .next t => t
  | .fault _ | .refused _ => s

/-- Reset, with two field registers. -/
def withF (a b : Nat) : State :=
  { State.reset with f := (State.reset.f.set 0 (BitVec.ofNat 256 a)).set 1 (BitVec.ofNat 256 b) }

/-- Reset, with two finite points. -/
def withP (x0 y0 x1 y1 : Nat) : State :=
  { State.reset with
    p := (State.reset.p.set 0 ⟨false, BitVec.ofNat 256 x0, BitVec.ofNat 256 y0⟩).set 1
      ⟨false, BitVec.ofNat 256 x1, BitVec.ofNat 256 y1⟩ }

/-- Reset, with bytes in DBUF from 0 on. -/
def withBytes (b : List Byte) : State := State.reset.memWrite 0 b

/-- p0 = G, p1 = -G. -/
def withG : State :=
  withP Rom.gx Rom.gy Rom.gx 0x43C8C95C0B098863A642311C9496DEAC2F56788239D5B8C0FD20CD1ADEC60F5F

/-- The x coordinate of 2G. -/
def x2 : Nat := 0x56CEFD60D7C87C000D58EF57FA73BA4D9C0DFA08C08A7331495C2E1DA3F2BD52

/-- The y coordinate of 2G. -/
def y2 : Nat := 0x31B7E7E6CC8189F668535CE0F8EAF1BD6DE84C182F6C8E716F780D3A970A23C3

/-- The greatest u256. -/
def m256 : Nat := 2 ^ 256 - 1

/-- A point register as numbers. -/
def triple (r : PointReg) : Bool × Nat × Nat := (r.inf, r.x.toNat, r.y.toNat)

/-- The eight SM3 words as one number. -/
def vNumber (s : State) : Nat := s.v.toList.foldl (fun a x => a * 2 ^ 32 + x.toNat) 0

/-- EN-1. -/
theorem test_nop : run 0x00000000 State.reset =
    { State.reset with status := { State.reset.status with done := true } } := by decide +kernel

/-- EN-5: STATUS = 0x106, CMD the word, nothing else. -/
theorem test_illegal : (run 0x00006001 State.reset).statusWord = 0x106 ∧ (run 0x00006001 State.reset).cmd = 0x6001 ∧
    (run 0x00006001 State.reset).f = State.reset.f := by decide +kernel

/-- FI-FLDC-4. -/
theorem test_fldc : (run 0x00003301 State.reset).f[3].toNat =
    0xFFFFFFFEFFFFFFFFFFFFFFFFFFFFFFFF7203DF6B21C6052B53BBF40939D54123 := by decide +kernel

/-- FI-FMOV-1: not reduced. -/
theorem test_fmov : (run 0x00000102 (withF m256 0)).f[1].toNat = m256 := by decide +kernel

/-- FI-MADD-3. -/
theorem test_madd_wide : (run 0x00010210 (withF m256 m256)).f[2].toNat =
    0x0000000200000000000000000000000000000001FFFFFFFE0000000000000000 := by decide +kernel

/-- FI-MADD-5: one register as both sources and destination. -/
theorem test_madd_same : (run 0x00000010 (withF 3 5)).f[0].toNat = 6 := by decide +kernel

/-- FI-MSUB-4. -/
theorem test_msub : (run 0x00010211 (withF 3 m256)).f[2].toNat =
    0xFFFFFFFDFFFFFFFFFFFFFFFFFFFFFFFFFFFFFFFE000000020000000000000002 := by decide +kernel

/-- FI-MMUL-2. -/
theorem test_mmul : (run 0x00010212 (withF m256 m256)).f[2].toNat =
    0x0000000200000002000000010000000100000001000000010000000200000002 := by decide +kernel

/-- FI-MINV-3. -/
theorem test_minv : (run 0x00000113 (withF 2 0)).f[1].toNat =
    0x7FFFFFFF7FFFFFFFFFFFFFFFFFFFFFFFFFFFFFFF800000008000000000000000 := by decide +kernel

/-- FI-MINV-6: p ≡ 0. -/
theorem test_minv_zero : (run 0x00000113 (withF Rom.p 7)).f[1].toNat = 0 := by decide +kernel

/-- CU-PLDG-1. -/
theorem test_pldg : triple (run 0x00000220 State.reset).p[2] =
    (false, 0x32C4AE2C1F1981195F9904466A39C9948FE30BBFF2660BE1715A4589334C74C7,
      0xBC3736A2F4F6779C59BDCEE36B692153D0A9877CC62A474002DF32E52139F0A0) := by decide +kernel

/-- CU-PSETINF-1. -/
theorem test_psetinf : triple (run 0x00000121 withG).p[1] = (true, 0, 0) := by decide +kernel

/-- CU-PMOV-1: verbatim. -/
theorem test_pmov : triple (run 0x00000322 (withP (1 + Rom.p) 7 0 0)).p[3] = (false, 1 + Rom.p, 7) := by decide +kernel

/-- CU-PSET-2. -/
theorem test_pset : triple (run 0x00010023 (withF 1 2)).p[0] = (false, 1, 2) := by decide +kernel

/-- CU-FGET-1. -/
theorem test_fgetx : (run 0x00000124 withG).f[1].toNat = Rom.gx := by decide +kernel

/-- CU-FGET-1. -/
theorem test_fgety : (run 0x00000225 withG).f[2].toNat = Rom.gy := by decide +kernel

/-- CU-PNEG-1. -/
theorem test_pneg : triple (run 0x00000226 withG).p[2] =
    (false, Rom.gx, 0x43C8C95C0B098863A642311C9496DEAC2F56788239D5B8C0FD20CD1ADEC60F5F) := by decide +kernel

/-- CU-PADD-4: inverses cancel. -/
theorem test_padd_inverse : triple (run 0x00010227 withG).p[2] = (true, 0, 0) := by decide +kernel

/-- CU-PADD-1: G + 2G = 3G. -/
theorem test_padd : triple (run 0x00010227 (withP Rom.gx Rom.gy x2 y2)).p[2] =
    (false, 0xA97F7CD4B3C993B4BE2DAA8CDB41E24CA13F6BD945302244E26918F1D0509EBF,
      0x530B5DD88C688EF5CCC5CEC08A72150F7C400EE5CD045292AAACDD037458F6E6) := by decide +kernel

/-- CU-PDBL-1. -/
theorem test_pdbl : triple (run 0x00000128 withG).p[1] = (false, x2, y2) := by decide +kernel

/-- CU-PDBL-3: y = 0. -/
theorem test_pdbl_zero : triple (run 0x00000128 (withP 5 0 0 0)).p[1] = (false, Rom.p - 10, 0) := by decide +kernel

/-- CU-PMUL-1. -/
theorem test_pmul_zero : triple (run 0x00000129 { withG with f := (withF 0 0).f }).p[1] = (true, 0, 0) := by
  decide +kernel

/-- CU-PMUL-3, by the two rounds a scalar below 4 needs. -/
theorem test_pmul_two : triple (smulLoop 2 2 0 .infinity (.finite (BitVec.ofNat 256 Rom.gx) (BitVec.ofNat 256 Rom.gy))).toReg =
    (false, x2, y2) := by decide +kernel

/-- CU-PCHK-1. -/
theorem test_pchk : (run 0x0000002A withG).statusWord = 0x22 := by decide +kernel

/-- CU-PCHK-3: Infinity clears T. -/
theorem test_pchk_infinity : (run 0x0000002A (State.reset.setT true)).statusWord = 0x02 := by decide +kernel

/-- CU-PSTORE-2: the last place that fits. -/
theorem test_pstore : intBe ((run 0x0000002B { withG with dst := 0xFC0 }).dbuf.readBytes 0xFC0 64) =
    Rom.gx * 2 ^ 256 + Rom.gy := by decide +kernel

/-- P5 step 5: INF_ENCODE before RANGE. -/
theorem test_pstore_infinity : (run 0x0000002B { State.reset with dst := 0xFC1 }).statusWord = 0x406 := by decide +kernel

/-- The bytes 0x01 .. 0x40 as a point. -/
theorem test_pload : triple (run 0x0000022C (withBytes ((List.range 64).map fun i => BitVec.ofNat 8 (i + 1)))).p[2] =
    (false, 0x0102030405060708090A0B0C0D0E0F101112131415161718191A1B1C1D1E1F20,
      0x2122232425262728292A2B2C2D2E2F303132333435363738393A3B3C3D3E3F40) := by decide +kernel

theorem test_pload_range : (run 0x0000002C { State.reset with src := 0xFC1 }).statusWord = 0x206 := by decide +kernel

/-- R180. -/
theorem test_hinit : vNumber (run 0x00000030 { State.reset with v := Vector.replicate 8 0 }) =
    0x7380166F4914B2B9172442D7DA8A0600A96F30BC163138AAE38DEE4DB0FB0E4E := by decide +kernel

/-- HC-2: block 0 of "abcd" sixteen times. -/
theorem test_hcomp : vNumber (run 0x00000031 { State.reset with b := Vector.replicate 16 0x61626364 }) =
    0x5950DE81468664EB42FD4C861E7CA00AC0A5910BAE9A55EA1ADB8D17763CA222 := by decide +kernel

/-- V2: "abc". -/
theorem test_hash : vNumber (run 0x00000032 { withBytes [0x61, 0x62, 0x63] with len := 3, dst := 0x40 }) =
    0x66C7F0F462EEEDD9D1F2D46BDC10E4E24167C4875CF2F7A2297DA02B8F4BA8E0 := by decide +kernel

theorem test_hash_range : (run 0x00000032 { State.reset with src := 4096, len := 1 }).statusWord = 0x206 := by
  decide +kernel

/-- The KDF vector with Z = "abc", klen = 8: one byte, CT = 2. -/
theorem test_kdf : (fun t : State => (t.dbuf.read 0x40, t.ct, t.statusWord))
    (run 0x00000040 { withBytes [0x61, 0x62, 0x63] with len := 3, dst := 0x40, klenLo := 8 }) =
    (0xFE, 2, 0x02) := by decide +kernel

/-- klen = 0: nothing written, ZF = 1, CT = 1. -/
theorem test_kdf_empty : (fun t : State => (t.dbuf.cells, t.ct, t.statusWord)) (run 0x00000040 State.reset) =
    ([], 1, 0x42) := by decide +kernel

/-! ### Host transfers -/

theorem test_word_lanes : ((hostWrite 0x1000 .w32 0x61626380 State.reset).dbuf.readBytes 0 4) = [0x61, 0x62, 0x63, 0x80] ∧
    (hostRead 0x1003 .w8 (hostWrite 0x1000 .w32 0x61626380 State.reset)).1 = 0x80 := by decide +kernel

theorem test_bus_errors : (hostRead 0x002 .w32 State.reset).2.statusWord = 0x10 ∧
    (hostRead 0x00C .w8 State.reset).2.statusWord = 0x10 ∧ (hostRead 0x030 .w32 State.reset).2.statusWord = 0x10 ∧
    (hostRead 0x2000 .w32 State.reset).2.statusWord = 0x10 := by decide +kernel

/-- HI-15: STATUS reads BUSY = 1 while a command is pending, and CMD its word. -/
theorem test_busy_reads : (hostRead 0x00C .w32 (State.reset.accept 0x2B)).1 = 0x1 ∧
    (hostRead 0x010 .w32 (State.reset.accept 0x2B)).1 = 0x2B ∧
    (hostRead 0x000 .w32 (State.reset.accept 0x2B)).1 = 0x534D3233 := by decide +kernel

theorem test_read_only : hostWrite 0x000 .w32 5 State.reset = State.reset ∧
    hostWrite 0x028 .w32 5 State.reset = State.reset := by decide +kernel

theorem test_pinf_write : (hostWrite 0x02C .w32 0xFFFFFFF5 State.reset).pinfWord = 0x5 := by decide +kernel

theorem test_f_word_order : (hostWrite 0x100 .w32 1 State.reset).f[0].toNat = 2 ^ 224 ∧
    (hostWrite 0x11C .w32 1 State.reset).f[0].toNat = 1 := by decide +kernel

/-- HI-11: a write of all ones clears what W1C clears. -/
theorem test_status_clear : (hostWrite 0x00C .w32 0xFFFFFFFF
    { State.reset with status := ⟨true, true, true, true, true, false, some .kdfOvf⟩ }).statusWord = 0x20 := by decide +kernel

/-- While PSTORE is pending a write of F0 is lost and OVR is set. -/
theorem test_overrun : (hostWrite 0x100 .w32 7 (State.reset.accept 0x2B)).statusWord = 0x09 ∧
    (hostWrite 0x100 .w32 7 (State.reset.accept 0x2B)).f = State.reset.f := by decide +kernel

/-- An abandoned PSTORE leaves its 64 bytes listed as free values, and nothing else. -/
theorem test_abort : (({ withG with dst := 0x10 } : State).accept 0x2B).softReset.dbuf.cells.length = 64 ∧
    (({ withG with dst := 0x10 } : State).accept 0x2B).softReset.statusWord = 0 := by decide +kernel

theorem test_windowOffset : windowOffset 0x40000000 0x4000FFFF = some 0xFFFF ∧
    windowOffset 0x40000000 0x40010000 = none ∧ windowOffset 0x40000000 0x3FFFFFFF = none := by decide

/-- With nothing scheduled the idle machine stays as it is after reset. -/
theorem test_reset_waits : step State.reset = .next State.reset := rfl

/-! ### States that meet the hypotheses of the statements -/

theorem witness_DecodeOfEncodedCommand : (Instr.pmul 3 7 3).wf = true := by decide

theorem witness_DecodedWordEncodesBack : decode 0x00003129 = .ok (.pmul 1 3 0) := by decide

theorem witness_EngineTurnRunsTheDecodedCommand : (State.reset.accept 0x00011312).engine = .busy 0x00011312 ∧
    (State.reset.accept 0x00011312).inReset = false ∧ decode 0x00011312 = .ok (.mmul 3 1 1) := by decide

/-- One word for each way not to be legal, the field one past its class. -/
theorem witness_IllegalWordCompletesWithIllegal : State.reset.engine = .idle ∧ State.reset.inReset = false ∧
    ¬ LegalWord 0x00006001 ∧ ¬ LegalWord 0x00000003 ∧ ¬ LegalWord 0x00100000 ∧ ¬ LegalWord 0x00000420 := by
  simp [LegalWord, State.reset]

theorem witness_EveryCommandWordIsAccepted : State.reset.engine = .idle ∧ State.reset.inReset = false := by decide

/-- Reset with klen at the limit of R202. -/
def atLimit : State := { State.reset with klenHi := 0xFF, klenLo := 0xFFFFFF00 }

/-- Reset with operands that fit DBUF to its last byte. -/
def atEnd : State := { withG with src := 4096, dst := 0xFC0 }

theorem witness_ErrorsComeInPriorityOrder :
    (Instr.pldg 4).wf = false ∧ (2 ^ 32 - 1) * 256 ≤ atLimit.klen ∧
    (let s := { State.reset with src := 4096, len := 1 }
     s.klen < (2 ^ 32 - 1) * 256 ∧ s.dbuf.size < s.src.toNat + s.len.toNat) ∧
    (let s := { State.reset with dst := 4097 }
     s.klen < (2 ^ 32 - 1) * 256 ∧ s.dbuf.size < s.dst.toNat + (s.klen + 7) / 8) ∧
    State.reset.p[(0 : Fin 4)].inf = true ∧
    (let s := { withG with dst := 0xFC1 }
     s.p[(0 : Fin 4)].inf = false ∧ s.dbuf.size < s.dst.toNat + 64) ∧
    (let s := { State.reset with src := 0xFC1 }
     s.dbuf.size < s.src.toNat + 64) ∧
    (let s := { State.reset with dst := 0xFE1 }
     s.dbuf.size < s.dst.toNat + 32) := by decide +kernel

/-- A pending HINIT keeps the invariant's clauses, the one on a busy engine included, and its step has a next state. -/
theorem witness_EveryStepKeepsTheInvariant :
    (State.reset.accept 0x30).Inv ∧ ∃ t, step (State.reset.accept 0x30) = .next t := by
  refine ⟨⟨by decide, ?_, by decide, by decide⟩, _, rfl⟩
  intro c hc
  cases hc
  exact ⟨rfl, rfl⟩

theorem witness_FlagTIsWrittenByPchkOnly : (∃ t, exec (.pchk (reg 3)) withG = .next t) ∧
    ∃ t, exec (.pchk 4) withG = .next t := ⟨⟨_, rfl⟩, _, rfl⟩

theorem witness_FlagZfIsWrittenByKdfOnly : (∃ t, exec .kdf atEnd = .next t) ∧ (∃ t, exec .kdf atLimit = .next t) ∧
    atEnd.klen < (2 ^ 32 - 1) * 256 ∧ atEnd.src.toNat + atEnd.len.toNat ≤ atEnd.dbuf.size ∧
    atEnd.dst.toNat + (atEnd.klen + 7) / 8 ≤ atEnd.dbuf.size ∧ ¬ atLimit.klen < (2 ^ 32 - 1) * 256 :=
  ⟨by rw [exec_eq_runCommand]; exact runCommand_next _ _ _, by rw [exec_eq_runCommand]; exact runCommand_next _ _ _,
    by decide +kernel⟩

theorem witness_CommandsLeaveOperandRegistersAlone : ∃ t, exec .hinit atEnd = .next t := ⟨_, rfl⟩

/-- The byte before and the byte after what PSTORE stores. -/
theorem witness_CommandsStoreOnlyFromDstOn : (∃ t, exec (.pstore 0) atEnd = .next t) ∧
    ¬ (atEnd.dst.toNat ≤ 0xFBF ∧ 0xFBF < atEnd.dst.toNat + 64) ∧
    ¬ (atEnd.dst.toNat ≤ 0x1000 ∧ 0x1000 < atEnd.dst.toNat + 64) :=
  ⟨by rw [exec_eq_runCommand]; exact runCommand_next _ _ _, by decide⟩

/-- One access of each kind R71 names, next to the boundary. -/
theorem witness_IllegalAccessIsABusError :
    ¬ LegalAccess 4096 0x030 .w32 ∧ ¬ LegalAccess 4096 0x320 .w32 ∧ ¬ LegalAccess 4096 0x380 .w32 ∧
    ¬ LegalAccess 4096 0xFFC .w32 ∧ ¬ LegalAccess 4096 0x2000 .w8 ∧ ¬ LegalAccess 4096 0x00C .w8 ∧
    ¬ LegalAccess 4096 0x1000 .w16 ∧ ¬ LegalAccess 4096 0x1002 .w32 ∧ ¬ LegalAccess 4096 0x002 .w32 := by
  simp [LegalAccess, Mapped]

theorem witness_ReadsHaveNoSideEffects :
    LegalAccess 4096 0x000 .w32 ∧ LegalAccess 4096 0x02C .w32 ∧ LegalAccess 4096 0x31C .w32 ∧
    LegalAccess 4096 0x37C .w32 ∧ LegalAccess 4096 0x1FFF .w8 ∧ LegalAccess 4096 0x1FFC .w32 := by
  simp [LegalAccess, Mapped]

theorem witness_WritingBackWhatWasReadChangesNothing : State.reset.engine = .idle ∧ State.reset.inReset = false ∧
    LegalAccess State.reset.dbuf.size 0x008 .w32 ∧ LegalAccess State.reset.dbuf.size 0x1FFC .w32 ∧
    (0x008 : BitVec 16) ≠ 0x010 ∧ (0x008 : BitVec 16) ≠ 0x00C := by
  simp [LegalAccess, Mapped, State.reset, Config.dbufSizeDefault]

theorem witness_WrittenRegisterReadsBack : State.reset.engine = .idle ∧ State.reset.inReset = false ∧
    StoredWhole 0x014 ∧ StoredWhole 0x024 ∧ StoredWhole 0x100 ∧ StoredWhole 0x31C ∧ StoredWhole 0x340 ∧
    StoredWhole 0x37C ∧ ¬ StoredWhole 0x02C ∧ LegalAccess State.reset.dbuf.size 0x1FFF .w8 := by
  simp [StoredWhole, LegalAccess, Mapped, State.reset, Config.dbufSizeDefault]

/-- A busy state, whose CMD is read truly, and an idle one. -/
theorem witness_RegisterPageShowsTheRegisters : (State.reset.accept 0x2B).inReset = false ∧
    (State.reset.accept 0x2B).engine = .busy 0x2B ∧ State.reset.inReset = false ∧ State.reset.engine = .idle := by decide

/-- A busy state, whose STATUS reads BUSY = 1, and an idle one. -/
theorem witness_StatusWordsHaveTheirBits : (State.reset.accept 0x2B).inReset = false ∧
    (State.reset.accept 0x2B).engine = .busy 0x2B ∧ State.reset.inReset = false ∧ State.reset.engine = .idle := by decide

/-- The last word and the last byte of DBUF. -/
theorem witness_DbufLanesAreBigEndian : State.reset.engine = .idle ∧ State.reset.inReset = false ∧
    (0x1FFC : BitVec 16).toNat = 0x1000 + 0xFFC ∧ 0xFFC % 4 = 0 ∧ 0xFFC + 4 ≤ State.reset.dbuf.size ∧
    (0x1FFF : BitVec 16).toNat = 0x1000 + 0xFFF ∧ 0xFFF < State.reset.dbuf.size := by decide

theorem witness_PinfWriteSetsTheTags : State.reset.engine = .idle ∧ State.reset.inReset = false := by decide

/-- A busy state and an idle one. -/
theorem witness_StatusWriteClearsItsBits : (State.reset.accept 0x2B).inReset = false ∧
    State.reset.inReset = false := by decide

theorem witness_ControlWriteSetsInterruptEnable : (State.reset.accept 0x2B).inReset = false ∧
    (0xFFFFFFFD : Word).getLsbD 1 = false := by decide

theorem witness_BusyEngineDropsWrites : (State.reset.accept 0x2B).engine = .busy 0x2B ∧
    (State.reset.accept 0x2B).inReset = false ∧ LegalAccess (State.reset.accept 0x2B).dbuf.size 0x014 .w32 ∧
    LegalAccess (State.reset.accept 0x2B).dbuf.size 0x010 .w32 ∧
    (0x014 : BitVec 16) ∉ [0x000, 0x004, 0x008, 0x00C, 0x010] ∧ (0x010 : BitVec 16) ∉ [0x008, 0x00C] := by
  simp [LegalAccess, Mapped, State.reset, Config.dbufSizeDefault]

theorem witness_InterruptIsDoneAndEnabled : (∃ t, exec .nop State.reset = .next t) ∧ State.reset.inReset = false ∧
    State.reset.engine = .idle ∧ (0x1 : Word).getLsbD 1 = false ∧ (0x2 : Word).getLsbD 1 = true ∧
    ({ State.reset with inReset := true } : State).inReset = true := ⟨⟨_, rfl⟩, by decide⟩

/-- An idle state, and each of the three commands that are due to write DBUF, with a byte just outside its range. -/
theorem witness_SoftResetRestoresEveryRegister : State.reset.inReset = false ∧ (0x2 : Word).getLsbD 1 = true ∧
    State.reset.engine = .idle ∧ (atEnd.accept 0x2B).engine = .busy 0x2B ∧
    ¬ DueByte (atEnd.accept 0x2B) 0x2B 0xFBF ∧ ¬ DueByte (atEnd.accept 0x32) 0x32 0xFE0 ∧
    ¬ DueByte (atEnd.accept 0x40) 0x40 0xFC0 ∧ DueByte (atEnd.accept 0x2B) 0x2B 0xFFF := by
  unfold DueByte
  decide +kernel

theorem witness_HardResetRestoresEveryRegister : ({ State.reset with inReset := true } : State).inReset = true := rfl

/-- The two congruences of the statement, by unreduced operands. -/
theorem witness_MinvIsTheFermatPower : (withF Rom.p 0).f[(0 : Fin 8)].toNat % Rom.p = 0 ∧
    (withF (Rom.p + 1) 0).f[(0 : Fin 8)].toNat % Rom.p = 1 := by decide +kernel

theorem witness_FieldCommandsTouchFieldRegistersOnly : isFieldCommand (.minv 7 7) = true ∧
    isFieldCommand (.fldc 8 5) = true := by decide

theorem witness_PnegNegatesTheCanonicalPoint : State.reset.p[(3 : Fin 4)].inf = true ∧
    withG.p[(0 : Fin 4)].inf = false := by decide +kernel

/-- Inverse points, a point with itself, two points, and reduced ones up to p - 1. -/
theorem witness_AdditionFollowsChordAndTangent : (1 : U256) = 1 ∧ (2 : U256) ≠ 3 ∧ (1 : U256) ≠ 4 ∧
    (∃ l : Nat, (l : Int) = (3 * ((1 : U256).toNat : Int) ^ 2 + (Rom.a : Int)) * inverse (2 * ((2 : U256).toNat : Int)) %
      (Rom.p : Int)) ∧ (∃ l : Nat, (l : Int) = (((5 : U256).toNat : Int) - ((2 : U256).toNat : Int)) *
      inverse (((4 : U256).toNat : Int) - ((1 : U256).toNat : Int)) % (Rom.p : Int)) ∧
    Reduced (.finite (BitVec.ofNat 256 (Rom.p - 1)) (BitVec.ofNat 256 (Rom.p - 1))) ∧ Reduced .infinity := by
  have h (z : Int) : ∃ l : Nat, (l : Int) = z % (Rom.p : Int) := ⟨modP z, modP_cast z⟩
  refine ⟨rfl, by decide, by decide, h _, h _, ⟨?_, ?_⟩, trivial⟩ <;> decide +kernel

theorem witness_DoublingIsAdditionToItself : (BitVec.ofNat 256 (Rom.p - 1)).toNat < Rom.p := by decide +kernel

theorem witness_ScalarMultiplicationIsDoubleAndAdd : (256 ≤ 256 ∧ (BitVec.ofNat 256 m256).toNat < 2 ^ 256) ∧
    (0 ≤ 256 ∧ (0 : U256).toNat < 2 ^ 0) ∧ Reduced (.finite 5 0) := by
  refine ⟨by decide +kernel, by decide, ?_, ?_⟩ <;> decide +kernel

theorem witness_NegatedPointCancels : (BitVec.ofNat 256 Rom.gx).toNat < Rom.p ∧ (BitVec.ofNat 256 Rom.gy).toNat < Rom.p ∧
    BitVec.ofNat 256 Rom.gy ≠ 0 := by decide +kernel

/-- The last place where 64 bytes fit. -/
theorem witness_PstoreWritesTheEncodedPoint : atEnd.p[(0 : Fin 4)].inf = false ∧
    atEnd.dst.toNat + 64 ≤ atEnd.dbuf.size := by decide +kernel

theorem witness_PloadReadsTheEncodedPoint : ({ atEnd with src := 0xFC0 } : State).src.toNat + 64 ≤ atEnd.dbuf.size := by
  decide +kernel

theorem witness_StoredPointLoadsBack : atEnd.p[(0 : Fin 4)].inf = false ∧ atEnd.dst.toNat + 64 ≤ atEnd.dbuf.size ∧
    ∃ t, exec (.pstore (reg 0)) atEnd = .next t :=
  ⟨by decide +kernel, by decide +kernel, by rw [exec_eq_runCommand]; exact runCommand_next _ _ _⟩

theorem witness_PaddingIsTheLeast : (List.replicate 55 (0 : Byte)).length = 55 ∧
    (List.replicate 56 (0 : Byte)).length = 56 ∧ ([] : List Byte).length = 0 := by decide

theorem witness_HashChainsTheBlocks : 0 < (Sm3.pad []).length / 64 := by
  rw [Sm3.pad_length]
  decide

/-- An empty source at the end of DBUF, a destination that ends there. -/
theorem witness_HashWritesTheDigest : atEnd.src.toNat + atEnd.len.toNat ≤ atEnd.dbuf.size ∧
    ({ atEnd with dst := 0xFE0 } : State).dst.toNat + 32 ≤ atEnd.dbuf.size := by decide +kernel

/-- The one bit of klen = 1 and the first bit beyond it. -/
theorem witness_KdfOutputIsTheTruncatedKeyStream : 0 < (1 + 7) / 8 ∧ 0 < 8 ∧ 8 * 0 + 0 < 1 ∧ ¬ 8 * 0 + 1 < 1 := by decide

/-- An output that fills DBUF, one bit short of it. -/
def fullOutput : State := { State.reset with klenLo := 32767 }

theorem witness_KdfWritesOutputCounterAndFlag : fullOutput.klen < (2 ^ 32 - 1) * 256 ∧
    fullOutput.src.toNat + fullOutput.len.toNat ≤ fullOutput.dbuf.size ∧
    fullOutput.dst.toNat + (fullOutput.klen + 7) / 8 ≤ fullOutput.dbuf.size := by decide +kernel

/-- Two states that agree on nothing but the empty Z and klen = 0. -/
theorem witness_KdfDependsOnZAndKlenOnly : atEnd.klen = State.reset.klen ∧ atEnd.len = State.reset.len ∧
    (∀ i < atEnd.len.toNat, atEnd.dbuf.read (atEnd.src.toNat + i) = State.reset.dbuf.read (State.reset.src.toNat + i)) ∧
    atEnd.klen < (2 ^ 32 - 1) * 256 ∧ atEnd.src.toNat + atEnd.len.toNat ≤ atEnd.dbuf.size ∧
    atEnd.dst.toNat + (atEnd.klen + 7) / 8 ≤ atEnd.dbuf.size ∧
    State.reset.src.toNat + State.reset.len.toNat ≤ State.reset.dbuf.size ∧
    State.reset.dst.toNat + (State.reset.klen + 7) / 8 ≤ State.reset.dbuf.size ∧
    (∃ t, exec .kdf atEnd = .next t) ∧ ∃ t, exec .kdf State.reset = .next t := by
  have h : atEnd.len.toNat = 0 := by decide
  refine ⟨by decide +kernel, by decide, fun i hi => absurd hi (by omega), by decide +kernel, by decide, by decide +kernel,
    by decide, by decide +kernel, ?_, ?_⟩ <;>
    (rw [exec_eq_runCommand]; exact runCommand_next _ _ _)

end Sys2Proof.Tests
end

section
/-! PROOF. The family of 10_state.md: what commands leave alone, the register page as the host reads and writes it, and
the state after reset. The lemmas about commands stand first, then those about host transfers, then the statements. -/

namespace Sys2Proof.Machine

open Sys2Proof Sys2Proof.Claims

/-! ### What a command's body writes beside its results -/

/-- T, ZF, CT and V, each left alone by the body of every command but those named (10_state.md R28, R29, R33, R38). -/
structure ImplicitFrame (i : Instr) (s u : State) : Prop where
  t : (∀ a, i ≠ .pchk a) → u.status.t = s.status.t
  zf : i ≠ .kdf → u.status.zf = s.status.zf
  ct : i ≠ .kdf → u.ct = s.ct
  v : i ≠ .hinit → i ≠ .hcomp → i ≠ .hash → u.v = s.v

/-- A body that succeeds leaves alone what its command does not write. -/
theorem implicitFrame_of_ok {i : Instr} {s u : State} (h : bodyOf s i = .ok u) : ImplicitFrame i s u := by
  cases i
  case pstore => obtain ⟨-, -, rfl⟩ := pstoreBody_cases h; constructor <;> simp
  case pload => obtain ⟨-, rfl⟩ := ploadBody_cases h; constructor <;> simp
  case hash => obtain ⟨-, -, rfl⟩ := hashBody_cases h; constructor <;> simp
  case kdf => obtain ⟨-, -, -, rfl⟩ := kdfBody_cases h; constructor <;> simp
  all_goals cases h; constructor <;> simp

/-- KDF raises an error only where one of its three checks fails (43_kdf.md R209). -/
theorem kdfBody_error {s : State} {c : CmdError} (h : kdfBody s = .error c) :
    ¬ (s.klen < Kdf.lengthLimit ∧ s.src.toNat + s.len.toNat ≤ s.dbuf.size ∧
      s.dst.toNat + (s.klen + 7) / 8 ≤ s.dbuf.size) := by
  rintro ⟨hk, hsrc, hdst⟩
  simp [kdfBody, Memory.inRange, Nat.not_le.mpr hk, hsrc, hdst] at h

/-! ### Point operands -/

/-- A register number 0..3 is a legal point operand (30_encoding.md R91). -/
theorem isP_reg (a : Fin 4) : isP (reg a) = true := by revert a; decide

/-- A legal point operand is its register number. -/
theorem reg_pIndex {x : Nibble} (h : isP x = true) : reg (pIndex x) = x := by
  have hx : x.toNat < 4 := by simpa [isP] using h
  rw [reg, pIndex_val hx, BitVec.ofNat_toNat, BitVec.setWidth_eq]

/-- The canonical value of a triple (00_scope.md R14). -/
theorem PointReg.value_canon (r : PointReg) : r.value.canon = canonOf r := by
  obtain ⟨inf, x, y⟩ := r
  cases inf <;> rfl

/-- A point operand is read as the canonical value of its triple (41_curve.md R132). -/
theorem readCanon_eq_canonOf (s : State) (x : Nibble) : s.readCanon x = canonOf s.p[pIndex x] :=
  PointReg.value_canon _

/-! ### Host transfers -/

/-- A scheduled host write is the next step. -/
theorem step_hostWrite (s : State) (off : BitVec 16) (w : Width) (v : Word) (rest : List Event) :
    step { s with events := .hostWrite off w v :: rest } = .next (hostWrite off w v { s with events := rest }) := rfl

/-- A write of a register by its offset, idle or of one that takes a write while busy (20_memory.md R70). -/
theorem hostWrite_reg {s : State} (r : Reg) {off : BitVec 16} (v : Word) (hoff : off.toNat = r.offset)
    (hr : s.inReset = false) (hb : s.engine = .idle ∨ (Target.reg r).writableWhileBusy = true) :
    hostWrite off .w32 v s = r.write v s :=
  hostWrite_of_target v hr (target_reg _ r hoff) hb

/-- A legal access reaches something (20_memory.md R69). -/
theorem exists_target_of_legalAccess {n : Nat} {off : BitVec 16} {w : Width} (h : LegalAccess n off w) :
    ∃ t, target n off w = some t := by
  obtain ⟨-, rfl, hm⟩ | ⟨hlo, hhi, rfl | ⟨rfl, h4⟩⟩ := h
  · obtain ⟨r, hr⟩ := Option.isSome_iff_exists.1 ((regAt_isSome_iff _).2 hm)
    exact ⟨_, target_reg n r (offset_of_regAt hr).symm⟩
  · exact ⟨_, target_byte (o := off.toNat - 0x1000) (by omega) (by omega)⟩
  · exact ⟨_, target_word (o := off.toNat - 0x1000) (by omega) (by omega) (by omega)⟩

/-- The registers that do not store a written word whole (10_state.md R21), as `Reg.read_write_self` lists them. -/
def notStoredWhole : List Reg := [Reg.id, .version, .ctrl, .status, .cmd, .ct, .pinf]

/-- Their offsets are not among those `StoredWhole` names. -/
theorem not_storedWhole_offset : ∀ r ∈ notStoredWhole, ¬ StoredWhole r.offset := by
  simp [notStoredWhole, StoredWhole, Reg.offset]

/-- An offset stored whole is that of a register that takes the written word as it is. -/
theorem exists_reg_of_storedWhole {o : Nat} (h : StoredWhole o) : ∃ r : Reg, o = r.offset ∧ r ∉ notStoredWhole := by
  have hm : Mapped o := by
    unfold StoredWhole at h
    unfold Mapped
    omega
  obtain ⟨r, hr⟩ := Option.isSome_iff_exists.1 ((regAt_isSome_iff o).2 hm)
  obtain rfl := offset_of_regAt hr
  exact ⟨r, rfl, fun hn => not_storedWhole_offset r hn h⟩

/-- A write to a register that is stored whole leaves DBUF, the engine and the reset input alone. -/
theorem Reg.write_frame (v : Word) (s : State) {r : Reg} (h : r ∉ notStoredWhole) :
    (r.write v s).dbuf = s.dbuf ∧ (r.write v s).engine = s.engine ∧ (r.write v s).inReset = s.inReset := by
  cases r <;> simp [notStoredWhole] at h <;> exact ⟨rfl, rfl, rfl⟩

/-- What a transfer reaches reads as before when DBUF and the register it may be read as before. -/
theorem Target.read_congr {s u : State} {t : Target} (hd : u.dbuf = s.dbuf)
    (hreg : ∀ r, t = .reg r → r.read u = r.read s) : t.read u = t.read s := by
  cases t with
  | reg r => exact hreg r rfl
  | byte o => simp only [Target.read, hd]
  | word o => simp only [Target.read, hd]

/-- A legal access elsewhere reads the same before and after a write to a register that is stored whole. -/
theorem hostRead_write_of_ne {s : State} {r : Reg} {off : BitVec 16} {w : Width} (v : Word) (hi : s.engine = .idle)
    (hr : s.inReset = false) (hs : r ∉ notStoredWhole) (hne : off.toNat ≠ r.offset)
    (hl : LegalAccess s.dbuf.size off w) :
    (hostRead off w (r.write v s)).1 = (hostRead off w s).1 := by
  obtain ⟨hd, he, hin⟩ := Reg.write_frame v s hs
  obtain ⟨t, ht⟩ := exists_target_of_legalAccess hl
  rw [hostRead_of_target hr ht (.inl hi),
    hostRead_of_target (hin.trans hr) (by rw [hd]; exact ht) (.inl (he.trans hi))]
  refine Target.read_congr hd fun r' hr' => Reg.read_write_of_ne v s hs ?_
  rintro rfl
  obtain ⟨-, q, hq, ho⟩ | ⟨-, o, ho, -⟩ | ⟨-, o, ho, -⟩ := target_cases ht
  · cases hr'.symm.trans hq
    exact hne ho
  · cases hr'.symm.trans ho
  · cases hr'.symm.trans ho

/-! ### The words of STATUS, CTRL and PINF as numbers -/

/-- A word with one more bit below it. -/
theorem toNat_append_ofBool {n : Nat} (x : BitVec n) (b : Bool) :
    (x ++ BitVec.ofBool b).toNat = x.toNat * 2 + b.toNat := BitVec.toNat_concat x b

theorem ctrlWord_toNat (s : State) : s.ctrlWord.toNat = s.ie.toNat := by
  simp [State.ctrlWord, toNat_append_ofBool]

theorem statusWord_toNat (s : State) : s.statusWord.toNat =
    s.busyBit.toNat + 2 * s.status.done.toNat + 4 * s.status.err.toNat + 8 * s.status.ovr.toNat +
    16 * s.status.berr.toNat + 32 * s.status.t.toNat + 64 * s.status.zf.toNat +
    256 * (errcodeField s.status.errcode).toNat := by
  have hgap : (0#20 ++ errcodeField s.status.errcode ++ 0#1).toNat = (errcodeField s.status.errcode).toNat * 2 := by
    rw [show (0#1) = BitVec.ofBool false from rfl, toNat_append_ofBool, BitVec.toNat_append]
    simp
  simp only [State.statusWord, toNat_append_ofBool, hgap]
  omega

theorem pinfWord_toNat (s : State) : s.pinfWord.toNat =
    s.p[0].inf.toNat + 2 * s.p[1].inf.toNat + 4 * s.p[2].inf.toNat + 8 * s.p[3].inf.toNat := by
  simp only [State.pinfWord, toNat_append_ofBool, BitVec.toNat_zero]
  omega

/-- BUSY as the number the host reads (10_state.md R41). -/
theorem busyBit_toNat (s : State) : s.busyBit.toNat = if s.engine = .idle then 0 else 1 := by
  cases h : s.engine <;> simp [State.busyBit, Engine.isBusy, h]

/-- Clearing a flag where a written bit is 1 (10_state.md R27). -/
theorem and_not_eq_ite : ∀ flag bit : Bool, (flag && !bit) = if bit then false else flag := by decide

end Sys2Proof.Machine

/-! ### The statements -/

namespace Sys2Proof.Proofs

open Sys2Proof Sys2Proof.Machine Sys2Proof.Claims

/-- Settles O14: a successful PCHK has a legal operand, and only its body writes T. -/
theorem flagTIsWrittenByPchkOnly : Obligations.FlagTIsWrittenByPchkOnly := by
  intro i s t h
  obtain ⟨hwf, u, hu, rfl⟩ | ⟨c, hc, rfl⟩ := exec_cases h
  · by_cases hp : ∃ a, i = .pchk a
    · obtain ⟨a, rfl⟩ := hp
      cases hu
      refine .inl ⟨pIndex a, by rw [reg_pIndex hwf], ?_⟩
      rw [← readCanon_eq_canonOf]
      rfl
    · push Not at hp
      exact .inr ⟨fun a => hp _, (implicitFrame_of_ok hu).t hp⟩
  · refine .inr ⟨?_, rfl⟩
    rintro a rfl
    obtain ⟨-, hbody⟩ | ⟨hwf, -⟩ := hc
    · cases hbody
    · exact absurd (isP_reg a) (by simpa [Instr.wf] using hwf)

/-- Settles O15: KDF succeeds exactly under its three checks, and only its body writes ZF. -/
theorem flagZfIsWrittenByKdfOnly : Obligations.FlagZfIsWrittenByKdfOnly := by
  intro i s t h
  obtain ⟨-, u, hu, rfl⟩ | ⟨c, hc, rfl⟩ := exec_cases h
  · by_cases hk : i = .kdf
    · subst hk
      obtain ⟨hlen, hsrc, hdst, rfl⟩ := kdfBody_cases hu
      rw [if_pos ⟨rfl, hlen, hsrc, hdst⟩]
      simp [Kdf.allZero]
    · rw [if_neg fun hn => hk hn.1]
      exact (implicitFrame_of_ok hu).zf hk
  · rw [if_neg]
    · rfl
    · rintro ⟨rfl, hok⟩
      obtain ⟨-, hbody⟩ | ⟨hwf, -⟩ := hc
      · exact kdfBody_error hbody hok
      · cases hwf

/-- Settles O16: the frame of a body that succeeds; a failed command writes STATUS only. -/
theorem commandsLeaveOperandRegistersAlone : Obligations.CommandsLeaveOperandRegistersAlone := by
  intro i s t h
  obtain ⟨-, u, hu, rfl⟩ | ⟨c, -, rfl⟩ := exec_cases h
  · have hb := bodyFrame_of_ok hu
    have hi := implicitFrame_of_ok hu
    exact ⟨hb.ie, hb.cmd, hb.src, hb.dst, hb.len, hb.klenLo, hb.klenHi, hb.b, hb.size, hb.ovr, hb.berr, hb.inReset,
      hb.events, hi.ct, hi.v⟩
  · simp

/-- Settles O21: a register stored whole is found at its offset, reads back, and shares no offset with another. -/
theorem writtenRegisterReadsBack : Obligations.WrittenRegisterReadsBack := by
  intro s v hi hr
  refine ⟨fun off hoff => ?_, hostWrite_reg .id v rfl hr (.inl hi), hostWrite_reg .version v rfl hr (.inl hi),
    hostWrite_reg .ct v rfl hr (.inl hi)⟩
  obtain ⟨r, ho, hs⟩ := exists_reg_of_storedWhole hoff
  obtain ⟨-, he, hin⟩ := Reg.write_frame v s hs
  rw [hostWrite_reg r v ho hr (.inl hi)]
  constructor
  · rw [hostRead_of_target (hin.trans hr) (target_reg _ r ho) (.inl (he.trans hi))]
    exact Reg.read_write_self v s r hs
  · intro off' w hne hl
    exact hostRead_write_of_ne v hi hr hs (fun e => hne (BitVec.eq_of_toNat_eq (e.trans ho.symm))) hl

/-- Settles O22: each mapped offset is that of a register, read as the model reads it. -/
theorem registerPageShowsTheRegisters : Obligations.RegisterPageShowsTheRegisters := by
  intro s hr rd
  refine ⟨hostRead_reg .id hr (.inr rfl), hostRead_reg .version hr (.inr rfl), hostRead_reg .cmd hr (.inr rfl),
    fun hi => ?_⟩
  have hreg (r : Reg) : rd r.offset = r.read s := hostRead_reg r hr (.inl hi)
  exact ⟨hreg .src, hreg .dst, hreg .len, hreg .klenLo, hreg .klenHi, hreg .ct, fun i j => hreg (.fWord i j),
    fun i j => hreg (.xWord i j), fun i j => hreg (.yWord i j), fun k => hreg (.vWord k), fun k => hreg (.bWord k)⟩

/-- Settles O23: the three words as sums of their bits. -/
theorem statusWordsHaveTheirBits : Obligations.StatusWordsHaveTheirBits := by
  intro s hr rd
  have hctrl : rd 0x008 = s.ctrlWord := hostRead_reg .ctrl hr (.inr rfl)
  have hstatus : rd 0x00C = s.statusWord := hostRead_reg .status hr (.inr rfl)
  refine ⟨by rw [hctrl, ctrlWord_toNat], ?_, fun hi => ?_⟩
  · rw [hstatus, statusWord_toNat, busyBit_toNat]
    congr 2
    rcases s.status.errcode with _ | c
    · rfl
    · cases c <;> rfl
  · have hpinf : rd 0x02C = s.pinfWord := hostRead_reg .pinf hr (.inl hi)
    rw [hpinf, pinfWord_toNat]

/-- Settles O25: the write is done to the tags of the four triples. -/
theorem pinfWriteSetsTheTags : Obligations.PinfWriteSetsTheTags := by
  intro s v hi hr
  have hw : hostWrite 0x02C .w32 v s = s.writePinf v := hostWrite_reg .pinf v rfl hr (.inl hi)
  rw [hw]
  exact ⟨rfl, fun i => by simp [State.writePinf]⟩

/-- Settles O26: STATUS takes a write while busy too, and the write is the acknowledgement. -/
theorem statusWriteClearsItsBits : Obligations.StatusWriteClearsItsBits := by
  intro s v rest hr
  have hw : hostWrite 0x00C .w32 v { s with events := rest } = State.acknowledge v { s with events := rest } :=
    hostWrite_reg .status v rfl hr (.inr rfl)
  rw [step_hostWrite, hw]
  simp only [State.acknowledge, and_not_eq_ite]

/-- Settles O12: DBUF is empty, the engine is Idle and ERR is 0. -/
theorem resetStateMeetsTheInvariant : Obligations.ResetStateMeetsTheInvariant where
  dbuf_wf := by decide
  busy_cmd _ h := nomatch h
  err_code := by decide
  draw_past := by decide

/-- Settles O27: CTRL takes a write while busy too, and without SRST it is no soft reset. -/
theorem controlWriteSetsInterruptEnable : Obligations.ControlWriteSetsInterruptEnable := by
  intro s v rest hr hv
  have hw : hostWrite 0x008 .w32 v { s with events := rest } = State.writeCtrl v { s with events := rest } :=
    hostWrite_reg .ctrl v rfl hr (.inr rfl)
  rw [step_hostWrite, hw]
  simp only [State.writeCtrl, hv, Bool.false_eq_true, if_false]

/-- Settles O30: the reset state field by field. -/
theorem resetValuesAreTheSpecs : Obligations.ResetValuesAreTheSpecs :=
  ⟨by decide, rfl, rfl, rfl, rfl, rfl, rfl⟩

end Sys2Proof.Proofs
end

section
/-! PROOF. The family of 20_memory.md: what commands store into DBUF, the host's transfers, and the invariant. The
lemmas about commands and DBUF stand first, then those about host transfers and steps, then the invariant's, then the
statements. -/

namespace Sys2Proof.Machine

open Sys2Proof Sys2Proof.Claims

/-! ### What a command stores into DBUF -/

/-- A due range is one of the three that R66 names. -/
theorem dueRangeOf_cases {s : State} {i : Instr} {o n : Nat} (h : dueRangeOf s i = some (o, n)) :
    o = s.dst.toNat ∧
      ((∃ a, i = .pstore a) ∧ n = 64 ∨ i = .hash ∧ n = 32 ∨ i = .kdf ∧ n = (s.klen + 7) / 8) := by
  cases i <;> simp [dueRangeOf] at h
  case pstore a => obtain ⟨-, rfl, rfl⟩ := h; exact ⟨rfl, .inl ⟨⟨a, rfl⟩, rfl⟩⟩
  case hash => obtain ⟨-, rfl, rfl⟩ := h; exact ⟨rfl, .inr (.inl ⟨rfl, rfl⟩)⟩
  case kdf => obtain ⟨-, rfl, rfl⟩ := h; exact ⟨rfl, .inr (.inr ⟨rfl, rfl⟩)⟩

/-- A body that succeeds leaves DBUF alone or stores a string that fills its due range (R66). -/
theorem dbuf_of_ok {i : Instr} {s u : State} (h : bodyOf s i = .ok u) :
    u.dbuf = s.dbuf ∨
      ∃ o x, dueRangeOf s i = some (o, x.length) ∧ u.dbuf = s.dbuf.writeBytes o x := by
  cases i
  case pstore a =>
    obtain ⟨-, hdst, rfl⟩ := pstoreBody_cases h
    exact .inr ⟨_, _, by simp [dueRangeOf, Memory.inRange, hdst, encodePoint], rfl⟩
  case hash =>
    obtain ⟨hsrc, hdst, rfl⟩ := hashBody_cases h
    exact .inr ⟨_, _, by simp [dueRangeOf, Memory.inRange, hsrc, hdst], rfl⟩
  case kdf =>
    obtain ⟨-, hsrc, hdst, rfl⟩ := kdfBody_cases h
    exact .inr ⟨_, _, by simp [dueRangeOf, Memory.inRange, hsrc, hdst], rfl⟩
  case pload => obtain ⟨-, rfl⟩ := ploadBody_cases h; exact .inl rfl
  all_goals cases h; exact .inl rfl

/-! ### DBUF -/

/-- Storing a range as it reads leaves every byte as it reads. -/
theorem Memory.read_writeBytes_readBytes (m : Memory) (o n a : Nat) :
    (m.writeBytes o (m.readBytes o n)).read a = m.read a := by
  by_cases h : a < o ∨ o + n ≤ a
  · exact Memory.read_writeBytes_outside m o _ a (by simpa using h)
  · obtain ⟨i, rfl⟩ := Nat.exists_eq_add_of_le (show o ≤ a by omega)
    rw [Memory.read_writeBytes_inside m o _ i (by simp; omega), Memory.readBytes_getElem]

/-- The size of a well-formed DBUF is one R7 admits. -/
theorem Memory.sizeLegal_of_wf {m : Memory} (hm : m.wf = true) : Config.dbufSizeLegal m.size = true :=
  ((Bool.and_eq_true _ _).mp hm).1

/-- DBUF with no byte written, of a size R7 admits, is well formed. -/
theorem Memory.wf_empty {n : Nat} (draw : Nat) (hn : Config.dbufSizeLegal n = true) :
    Memory.wf { size := n, cells := [], draw := draw } = true := by
  rw [Memory.wf, hn]
  rfl

/-- The size of a well-formed DBUF is a multiple of four (00_scope.md R7), so an aligned word lies wholly inside. -/
theorem Memory.word_inside {m : Memory} {o : Nat} (hm : m.wf = true) (ho : o < m.size) (h4 : o % 4 = 0) :
    o + 4 ≤ m.size := by
  have hsize : m.size % 4 = 0 := by
    have := Memory.sizeLegal_of_wf hm
    simp only [Config.dbufSizeLegal, Bool.and_eq_true, beq_iff_eq] at this
    exact this.1.1
  omega

/-! ### Host transfers -/

/-- A scheduled host read is the next step. -/
theorem step_hostRead (s : State) (off : BitVec 16) (w : Width) (rest : List Event) :
    step { s with events := .hostRead off w :: rest } = .next (State.busRead off w { s with events := rest }) := rfl

/-- A transfer that reaches something is a legal access (20_memory.md R69). -/
theorem legalAccess_of_target {n : Nat} {off : BitVec 16} {w : Width} {t : Target} (h : target n off w = some t) :
    LegalAccess n off w := by
  obtain ⟨rfl, r, -, ho⟩ | ⟨rfl, o, -, ho, hlt⟩ | ⟨rfl, o, -, ho, hlt, h4⟩ := target_cases h
  · have hlt := r.offset_lt
    have hm : Mapped r.offset := (regAt_isSome_iff _).1 (by simp)
    exact .inl ⟨by omega, rfl, ho ▸ hm⟩
  · exact .inr ⟨by omega, by omega, .inl rfl⟩
  · exact .inr ⟨by omega, by omega, .inr ⟨rfl, by omega⟩⟩

/-- A transfer at another offset than a register's does not reach that register. -/
theorem target_ne_reg {n : Nat} {off : BitVec 16} {w : Width} {t : Target} {r : Reg} (ht : target n off w = some t)
    (hne : off.toNat ≠ r.offset) : t ≠ .reg r := by
  rintro rfl
  obtain ⟨-, r', hr', ho⟩ | ⟨-, o, hbyte, -⟩ | ⟨-, o, hword, -⟩ := target_cases ht
  · cases hr'
    exact hne ho
  · cases hbyte
  · cases hword

/-- An access that is not legal reaches nothing (20_memory.md R71). -/
theorem target_eq_none {n : Nat} {off : BitVec 16} {w : Width} (h : ¬ LegalAccess n off w) : target n off w = none :=
  Option.eq_none_iff_forall_ne_some.2 fun _ ht => h (legalAccess_of_target ht)

/-- A read that reaches nothing returns 0 and sets BERR (20_memory.md R71). -/
theorem hostRead_berr {s : State} {off : BitVec 16} {w : Width} (hr : s.inReset = false)
    (ht : target s.dbuf.size off w = none) : hostRead off w s = (0, s.setBerr) := by
  simp [hostRead, hr, ht]

/-- A write that reaches nothing sets BERR (20_memory.md R71). -/
theorem hostWrite_berr {s : State} {off : BitVec 16} {w : Width} (v : Word) (hr : s.inReset = false)
    (ht : target s.dbuf.size off w = none) : hostWrite off w v s = s.setBerr := by
  simp [hostWrite, hr, ht]

/-- All a host read can do to the machine: set BERR where it reaches nothing, or draw free values. -/
theorem hostRead_snd_cases (off : BitVec 16) (w : Width) (s : State) :
    target s.dbuf.size off w = none ∧ (hostRead off w s).2 = s.setBerr ∨
      ∃ n, s.draws ≤ n ∧ (hostRead off w s).2 = { s with draws := n } := by
  unfold hostRead
  split
  · exact .inr ⟨_, Nat.le_succ _, rfl⟩
  · split
    next ht => exact .inl ⟨ht, rfl⟩
    next =>
      split
      · exact .inr ⟨_, Nat.le_succ _, rfl⟩
      · exact .inr ⟨_, le_rfl, rfl⟩

/-- All a host write can do: nothing, set BERR, set OVR, or write what it reaches. -/
theorem hostWrite_cases (off : BitVec 16) (w : Width) (v : Word) (s : State) :
    hostWrite off w v s = s ∨ hostWrite off w v s = s.setBerr ∨ hostWrite off w v s = s.setOvr ∨
      ∃ t, target s.dbuf.size off w = some t ∧ hostWrite off w v s = t.write v s := by
  unfold hostWrite
  split
  · exact .inl rfl
  · split
    next => exact .inr (.inl rfl)
    next t ht =>
      split
      · exact .inr (.inr (.inl rfl))
      · exact .inr (.inr (.inr ⟨t, ht, rfl⟩))

/-- The low byte of a word, as a number. -/
theorem extractLsb'_zero_eq_ofNat (v : Word) : v.extractLsb' 0 8 = BitVec.ofNat 8 v.toNat := rfl

/-- A 32-bit write of DBUF stores the most significant byte first (20_memory.md R63). -/
theorem Target.read_write_word (v : Word) (s : State) (o : Nat) {i : Nat} (h : i < 4) :
    ((Target.word o).write v s).dbuf.read (o + i) = v.extractLsb' (24 - 8 * i) 8 := by
  rw [Target.write, State.memWrite_dbuf, Memory.read_writeBytes_inside _ _ _ _ h]
  interval_cases i <;> rfl

/-- A 32-bit write of DBUF leaves every byte beside its four alone. -/
theorem Target.read_write_word_outside (v : Word) (s : State) {o a : Nat} (h : a < o ∨ o + 4 ≤ a) :
    ((Target.word o).write v s).dbuf.read a = s.dbuf.read a :=
  Memory.read_writeBytes_outside s.dbuf o
    [v.extractLsb' 24 8, v.extractLsb' 16 8, v.extractLsb' 8 8, v.extractLsb' 0 8] a h

/-- An 8-bit read of DBUF returns its byte (assumption log 9). -/
theorem Target.read_byte_toNat (s : State) (o : Nat) : ((Target.byte o).read s).toNat = (s.dbuf.read o).toNat := by
  rw [Target.read, BitVec.toNat_setWidth_of_le (by decide)]

/-- An 8-bit write of DBUF stores bits 7:0 of the value and leaves every other byte alone (assumption log 9). -/
theorem Target.read_write_byte (v : Word) (s : State) (o a : Nat) :
    ((Target.byte o).write v s).dbuf.read a = if a = o then BitVec.ofNat 8 v.toNat else s.dbuf.read a := by
  change (s.dbuf.write o (v.extractLsb' 0 8)).read a = _
  split
  next h => rw [h, Memory.read_write_self, extractLsb'_zero_eq_ofNat]
  next h => exact Memory.read_write_of_ne s.dbuf _ h

/-- A register but CMD and STATUS, written as it reads, is the machine unchanged (20_memory.md R72). -/
theorem Reg.write_read_self (s : State) {r : Reg} (hcmd : r ≠ .cmd) (hstatus : r ≠ .status) :
    r.write (r.read s) s = s := by
  cases r
  case cmd => exact absurd rfl hcmd
  case status => exact absurd rfl hstatus
  case ctrl =>
    simp only [Reg.write, Reg.read, State.writeCtrl, ctrlWord_srst, ctrlWord_ie, Bool.false_eq_true, if_false]
  case pinf => exact writePinf_pinfWord s
  case xWord i j | yWord i j =>
    simp only [Reg.write, Reg.read, setWord_getWord]
    exact congrArg (fun p => { s with p := p }) (Vector.set_getElem_self i.isLt)
  all_goals simp [Reg.write, Reg.read]

/-- A byte written as it reads is the store of the range of that byte as it reads. -/
theorem Target.write_read_byte (s : State) (o : Nat) :
    (Target.byte o).write ((Target.byte o).read s) s = s.memWrite o (s.dbuf.readBytes o 1) := by
  have hb : BitVec.ofNat 8 ((Target.byte o).read s).toNat = s.dbuf.read o := by
    rw [Target.read_byte_toNat, BitVec.ofNat_toNat, BitVec.setWidth_eq]
  rw [Target.write, extractLsb'_zero_eq_ofNat, hb]
  rfl

/-- A word written as it reads is the store of its four bytes as they read. -/
theorem Target.write_read_word (s : State) (o : Nat) :
    (Target.word o).write ((Target.word o).read s) s = s.memWrite o (s.dbuf.readBytes o 4) := by
  obtain ⟨h0, h1, h2, h3⟩ :=
    word_bytes (s.dbuf.read o) (s.dbuf.read (o + 1)) (s.dbuf.read (o + 2)) (s.dbuf.read (o + 3))
  simp only [Target.write, Target.read, h0, h1, h2, h3]
  rfl

/-- What is written as it reads, CMD and STATUS left out, leaves every register the same and every byte of DBUF as it
reads. -/
theorem Target.write_read_self (s : State) {t : Target} (hcmd : t ≠ .reg .cmd) (hstatus : t ≠ .reg .status) :
    t.write (t.read s) s = { s with dbuf := (t.write (t.read s) s).dbuf } ∧
      ∀ a, (t.write (t.read s) s).dbuf.read a = s.dbuf.read a := by
  cases t with
  | reg r =>
    have hw : (Target.reg r).write ((Target.reg r).read s) s = s :=
      Reg.write_read_self s (fun e => hcmd (by rw [e])) (fun e => hstatus (by rw [e]))
    simp only [hw, implies_true, and_self]
  | byte o =>
    rw [Target.write_read_byte]
    exact ⟨rfl, Memory.read_writeBytes_readBytes _ _ _⟩
  | word o =>
    rw [Target.write_read_word]
    exact ⟨rfl, Memory.read_writeBytes_readBytes _ _ _⟩

/-! ### Steps -/

/-- All the engine's turn can do: nothing while Idle or under hard reset, else the command it is busy with, or ILLEGAL
for a word that is not legal (60_exceptions.md R211, R212). -/
theorem engineTurn_cases {s t : State} (h : engineTurn s = .next t) :
    (s.inReset = true ∨ s.engine = .idle) ∧ t = s ∨
      s.inReset = false ∧ ∃ c, s.engine = .busy c ∧
        ((∃ i, decode c = .ok i ∧ exec i s = .next t) ∨
          (∃ e, decode c = .error e) ∧ t = s.raiseCmdError .illegal) := by
  unfold engineTurn at h
  split at h
  next hr =>
    cases h
    exact .inl ⟨.inl hr, rfl⟩
  next hr =>
    have hr : s.inReset = false := by simpa using hr
    split at h
    next hi =>
      cases h
      exact .inl ⟨.inr hi, rfl⟩
    next c hc =>
      split at h
      next i hi => exact .inr ⟨hr, c, hc, .inl ⟨i, hi, h⟩⟩
      next e he =>
        cases h
        exact .inr ⟨hr, c, hc, .inr ⟨⟨e, he⟩, rfl⟩⟩

/-- A step is the next scheduled event, or the engine's turn with nothing scheduled. -/
theorem step_cases {s t : State} (h : step s = .next t) :
    s.events = [] ∧ engineTurn s = .next t ∨
      ∃ e rest, s.events = e :: rest ∧ runEvent e { s with events := rest } = .next t := by
  unfold step takeTurn at h
  split at h
  next hnil => exact .inl ⟨hnil, h⟩
  next e rest hcons => exact .inr ⟨e, rest, hcons, h⟩

/-! ### The invariant -/

/-- More draws keep the invariant. -/
theorem State.Inv.withDraws {s : State} (h : s.Inv) {n : Nat} (hn : s.draws ≤ n) : State.Inv { s with draws := n } :=
  { h with draw_past := h.draw_past.trans_le hn }

/-- BERR and OVR are no part of the invariant. -/
theorem State.Inv.setBerr {s : State} (h : s.Inv) : s.setBerr.Inv := { h with }
theorem State.Inv.setOvr {s : State} (h : s.Inv) : s.setOvr.Inv := { h with }

/-- A store inside DBUF keeps the invariant. -/
theorem State.Inv.memWrite {s : State} (h : s.Inv) {o : Nat} {x : List Byte} (hx : o + x.length ≤ s.dbuf.size) :
    (s.memWrite o x).Inv where
  dbuf_wf := Memory.wf_writeBytes h.dbuf_wf hx
  busy_cmd := h.busy_cmd
  err_code := h.err_code
  draw_past := by simpa using h.draw_past

/-- An acceptance makes CMD and DONE what a busy engine asks for (60_exceptions.md R210). -/
theorem State.Inv.accept {s : State} (h : s.Inv) (c : Word) : (s.accept c).Inv where
  dbuf_wf := h.dbuf_wf
  busy_cmd _ hc := ⟨Engine.busy.inj hc, rfl⟩
  err_code := h.err_code
  draw_past := h.draw_past

/-- An acknowledgement clears ERR and ERRCODE together, and sets nothing (10_state.md R27). -/
theorem State.Inv.acknowledge {s : State} (h : s.Inv) (v : Word) : (s.acknowledge v).Inv where
  dbuf_wf := h.dbuf_wf
  busy_cmd c hc := by
    obtain ⟨hcmd, hdone⟩ := h.busy_cmd c hc
    exact ⟨hcmd, by simp [State.acknowledge, hdone]⟩
  err_code := by
    simp only [State.acknowledge]
    cases v.getLsbD 2
    · simpa using h.err_code
    · simp
  draw_past := h.draw_past

/-- An error comes with its code, and the engine is Idle (60_exceptions.md R211, R214). -/
theorem State.Inv.raiseCmdError {s : State} (h : s.Inv) (c : CmdError) : (s.raiseCmdError c).Inv where
  dbuf_wf := h.dbuf_wf
  busy_cmd _ hc := nomatch hc
  err_code := by simp
  draw_past := h.draw_past

/-- An abandoned command scrambles only bytes inside DBUF (70_reset_and_hazards.md R242). -/
theorem State.Inv.softReset {s : State} (h : s.Inv) : s.softReset.Inv where
  dbuf_wf := Memory.wf_scramble _ h.dbuf_wf fun _ _ hr => State.dueRange_inside hr
  busy_cmd _ hc := nomatch hc
  err_code := iff_of_true rfl rfl
  draw_past := by simpa using h.draw_past.trans (Nat.lt_succ_self _)

/-- A release of the reset input empties DBUF and takes its bytes from a new draw (70_reset_and_hazards.md R243). -/
theorem State.Inv.hardReset {s : State} (h : s.Inv) : s.hardReset.Inv where
  dbuf_wf := Memory.wf_empty _ (Memory.sizeLegal_of_wf h.dbuf_wf)
  busy_cmd _ hc := nomatch hc
  err_code := iff_of_true rfl rfl
  draw_past := Nat.lt_succ_self _

/-- A write of any register keeps the invariant. -/
theorem State.Inv.regWrite {s : State} (h : s.Inv) (v : Word) (r : Reg) : (r.write v s).Inv := by
  cases r
  case cmd => exact h.accept v
  case status => exact h.acknowledge v
  case ctrl =>
    simp only [Reg.write, State.writeCtrl]
    split
    · exact h.softReset
    · exact { h with }
  all_goals exact { h with }

/-- A host write keeps the invariant. -/
theorem State.Inv.hostWrite {s : State} (h : s.Inv) (off : BitVec 16) (w : Width) (v : Word) :
    (hostWrite off w v s).Inv := by
  obtain he | he | he | ⟨t, ht, he⟩ := hostWrite_cases off w v s <;> rw [he]
  · exact h
  · exact h.setBerr
  · exact h.setOvr
  · obtain ⟨-, r, rfl, -⟩ | ⟨-, o, rfl, -, ho⟩ | ⟨-, o, rfl, -, ho, h4⟩ := target_cases ht
    · exact h.regWrite v r
    · exact h.memWrite ho
    · exact h.memWrite (Memory.word_inside h.dbuf_wf ho h4)

/-- A host read keeps the invariant. -/
theorem State.Inv.busRead {s : State} (h : s.Inv) (off : BitVec 16) (w : Width) : (s.busRead off w).Inv := by
  have hs : (hostRead off w s).2.Inv := by
    obtain ⟨-, he⟩ | ⟨n, hn, he⟩ := hostRead_snd_cases off w s <;> rw [he]
    · exact h.setBerr
    · exact h.withDraws hn
  exact { hs with }

/-- A command keeps the invariant: what it stores lies inside DBUF, and it completes. -/
theorem State.Inv.exec {s t : State} {i : Instr} (h : s.Inv) (ht : exec i s = .next t) : t.Inv := by
  obtain ⟨-, u, hu, rfl⟩ | ⟨c, -, rfl⟩ := exec_cases ht
  · have hf := bodyFrame_of_ok hu
    have hwf : u.dbuf.wf = true := by
      obtain he | ⟨o, x, hr, he⟩ := dbuf_of_ok hu <;> rw [he]
      · exact h.dbuf_wf
      · exact Memory.wf_writeBytes h.dbuf_wf (dueRangeOf_inside hr)
    exact {
      dbuf_wf := hwf
      busy_cmd := fun _ hc => nomatch hc
      err_code := by simpa [hf.err, hf.errcode] using h.err_code
      draw_past := by simpa [hf.draw, hf.draws] using h.draw_past }
  · exact h.raiseCmdError c

/-- The engine's turn keeps the invariant. -/
theorem State.Inv.engineTurn {s t : State} (h : s.Inv) (ht : engineTurn s = .next t) : t.Inv := by
  obtain ⟨-, rfl⟩ | ⟨-, c, -, ⟨i, -, he⟩ | ⟨-, rfl⟩⟩ := engineTurn_cases ht
  · exact h
  · exact h.exec he
  · exact h.raiseCmdError .illegal

/-- Every event keeps the invariant. -/
theorem State.Inv.runEvent {s t : State} {e : Event} (h : s.Inv) (ht : runEvent e s = .next t) : t.Inv := by
  cases e with
  | hostRead off w => cases ht; exact h.busRead off w
  | hostWrite off w v => cases ht; exact h.hostWrite off w v
  | engineTurn => exact h.engineTurn ht
  | resetAsserted => cases ht; exact { h with }
  | resetReleased =>
    cases ht
    split
    · exact h.hardReset
    · exact h

end Sys2Proof.Machine

/-! ### The statements -/

namespace Sys2Proof.Proofs

open Sys2Proof Sys2Proof.Machine Sys2Proof.Claims

/-- Settles O13: each event keeps the invariant, and so does the engine's turn when nothing is scheduled. -/
theorem everyStepKeepsTheInvariant : Obligations.EveryStepKeepsTheInvariant := by
  intro s t h ht
  obtain ⟨-, he⟩ | ⟨e, rest, -, he⟩ := step_cases ht
  · exact h.engineTurn he
  · have hrest : State.Inv { s with events := rest } := { h with }
    exact hrest.runEvent he

/-- Settles O17: a command stores its due range, which is one of those three; a failed one stores nothing. -/
theorem commandsStoreOnlyFromDstOn : Obligations.CommandsStoreOnlyFromDstOn := by
  intro i s t o ht hpstore hhash hkdf
  obtain ⟨-, u, hu, rfl⟩ | ⟨c, -, rfl⟩ := exec_cases ht
  · obtain he | ⟨o', x, hr, he⟩ := dbuf_of_ok hu
    · rw [State.complete_dbuf, he]
    · rw [State.complete_dbuf, he]
      apply Memory.read_writeBytes_outside
      obtain ⟨rfl, ⟨hi, hn⟩ | ⟨hi, hn⟩ | ⟨hi, hn⟩⟩ := dueRangeOf_cases hr
      · have := not_and.1 hpstore hi
        omega
      · have := not_and.1 hhash hi
        omega
      · have := not_and.1 hkdf hi
        omega
  · rfl

/-- Settles O18: such an access reaches nothing. -/
theorem illegalAccessIsABusError : Obligations.IllegalAccessIsABusError := by
  intro s off w v rest hr hl
  have ht := target_eq_none hl
  have hread : hostRead off w { s with events := rest } = (0, State.setBerr { s with events := rest }) :=
    hostRead_berr hr ht
  have hwrite : hostWrite off w v { s with events := rest } = State.setBerr { s with events := rest } :=
    hostWrite_berr v hr ht
  rw [step_hostRead, step_hostWrite, State.busRead, hread, hwrite]
  exact ⟨rfl, rfl⟩

/-- Settles O19: a read sets BERR only where it reaches nothing. -/
theorem readsHaveNoSideEffects : Obligations.ReadsHaveNoSideEffects := by
  intro s off w rest hl
  obtain ⟨t, ht⟩ := exists_target_of_legalAccess hl
  obtain ⟨hn, -⟩ | ⟨n, -, he⟩ := hostRead_snd_cases off w { s with events := rest }
  · cases ht.symm.trans hn
  · exact ⟨_, n, by rw [step_hostRead, State.busRead, he]⟩

/-- Settles O20: the access reaches neither CMD nor STATUS, and all else may be written as it reads. -/
theorem writingBackWhatWasReadChangesNothing : Obligations.WritingBackWhatWasReadChangesNothing := by
  intro s off w hi hr hl hcmd hstatus
  obtain ⟨t, ht⟩ := exists_target_of_legalAccess hl
  rw [hostRead_of_target hr ht (.inl hi), hostWrite_of_target _ hr ht (.inl hi)]
  exact Target.write_read_self s (target_ne_reg ht fun e => hcmd (BitVec.eq_of_toNat_eq e))
    (target_ne_reg ht fun e => hstatus (BitVec.eq_of_toNat_eq e))

/-- Settles O24: the transfers reach the word and the byte at that place. -/
theorem dbufLanesAreBigEndian : Obligations.DbufLanesAreBigEndian := by
  intro s off v o hi hr hoff ho
  have hb := target_byte hoff ho
  refine ⟨fun h4 _ => ?_, ?_⟩
  · have hw := target_word hoff ho h4
    rw [hostRead_of_target hr hw (.inl hi), hostWrite_of_target v hr hw (.inl hi)]
    exact ⟨word_toNat _ _ _ _, rfl, fun _ => Target.read_write_word v s o, fun _ => Target.read_write_word_outside v s⟩
  · rw [hostRead_of_target hr hb (.inl hi), hostWrite_of_target v hr hb (.inl hi)]
    exact ⟨Target.read_byte_toNat s o, rfl, Target.read_write_byte v s o⟩

end Sys2Proof.Proofs
end

section
/-! PROOF. The family of 30_encoding.md: the decoder and the encoder against each other and against the legal words, and
the errors of a command in their order. The lemmas about the opcode map stand first, then those about commands, then the
statements. -/

namespace Sys2Proof

open Claims

/-! ### The rows of the opcode map -/

/-- The three fields hold legal values of the row's classes (30_encoding.md R91). -/
def OpRow.Admits (r : OpRow) (d a b : Nibble) : Prop :=
  r.rd.admits d = true ∧ r.ra.admits a = true ∧ r.rb.admits b = true

/-- A row is found by its own opcode. -/
theorem find?_opTable {r : OpRow} (hr : r ∈ opTable) : opTable.find? (fun q => q.op == r.op) = some r := by
  have hsome : (opTable.find? fun q => q.op == r.op).isSome = true :=
    List.find?_isSome.2 ⟨r, hr, beq_self_eq_true r.op⟩
  obtain ⟨q, hq⟩ := Option.isSome_iff_exists.1 hsome
  have hop : q.op = r.op := by simpa using List.find?_some hq
  rw [hq, List.inj_on_of_nodup_map opTable_ops_distinct (List.mem_of_find?_eq_some hq) hr hop]

/-- What the decoder takes, and what it makes of it: RSV is 0, and the row of the opcode admits the fields (R93). -/
theorem decode_eq_ok_iff {c : Word} {i : Instr} : decode c = .ok i ↔
    rsvField c = 0#12 ∧ ∃ r ∈ opTable, r.op = opField c ∧ r.Admits (rdField c) (raField c) (rbField c) ∧
      i = r.make (rdField c) (raField c) (rbField c) := by
  constructor
  · intro h
    obtain ⟨r, hr, hop, h0, hd, ha, hb, hi⟩ := decode_ok_row h
    exact ⟨h0, r, hr, hop, ⟨hd, ha, hb⟩, hi⟩
  · rintro ⟨h0, r, hr, hop, ⟨hd, ha, hb⟩, rfl⟩
    exact decode_of_row (by rw [← hop]; exact find?_opTable hr) h0 hd ha hb

/-- A row makes a well-formed command of fields it admits, and that command's word has the row's opcode and those fields
(R94, R95): an unused field is 0. -/
theorem wf_encode_make {r : OpRow} (hr : r ∈ opTable) {d a b : Nibble} (h : r.Admits d a b) :
    (r.make d a b).wf = true ∧ encode (r.make d a b) = packWord r.op d a b := by
  obtain ⟨hd, ha, hb⟩ := h
  fin_cases hr
  all_goals
    simp only [OpClass.admits, decide_eq_true_eq] at hd ha hb
    simp [Instr.wf, isF, isP, isC, encode, hd, ha, hb]

/-- The word of a command has RSV = 0 (R95). -/
theorem rsvField_encode (i : Instr) : rsvField (encode i) = 0#12 := by
  cases i <;> exact rsvField_packWord _ _ _ _

/-- The row found by the opcode of a well-formed command's word admits the fields of that word and makes the command of
them. -/
theorem row_of_wf {i : Instr} (h : i.wf = true) :
    ∃ r, opTable.find? (fun r => r.op == opField (encode i)) = some r ∧
      r.Admits (rdField (encode i)) (raField (encode i)) (rbField (encode i)) ∧
      r.make (rdField (encode i)) (raField (encode i)) (rbField (encode i)) = i := by
  cases i
  case nop | hinit | hcomp | hash | kdf => exact ⟨_, rfl, ⟨rfl, rfl, rfl⟩, rfl⟩
  all_goals
    simp only [encode, opField_packWord, rdField_packWord, raField_packWord, rbField_packWord]
    exact ⟨_, rfl, by simpa [OpRow.Admits, OpClass.admits, Instr.wf, isF, isP, isC, and_assoc] using h, rfl⟩

/-- The word packed of a row's opcode and three fields is legal exactly when the row admits the fields. -/
theorem legalWord_packWord_iff {r : OpRow} (hr : r ∈ opTable) (d a b : Nibble) :
    LegalWord (packWord r.op d a b).toNat ↔ r.Admits d a b := by
  simp only [LegalWord, ← opField_toNat, ← rdField_toNat, ← raField_toNat, ← rbField_toNat, ← rsvField_toNat,
    opField_packWord, rdField_packWord, raField_packWord, rbField_packWord, rsvField_packWord]
  fin_cases hr <;> simp [OpRow.Admits, OpClass.admits, ← BitVec.toNat_inj]

/-- A legal word has RSV = 0 and an opcode of the map (R93). -/
theorem exists_row_of_legalWord {w : Word} (h : LegalWord w.toNat) :
    rsvField w = 0#12 ∧ ∃ r ∈ opTable, r.op = opField w := by
  obtain ⟨hrsv, hfields⟩ := h
  refine ⟨BitVec.eq_of_toNat_eq ((rsvField_toNat w).trans hrsv), ?_⟩
  have hop : (opField w).toNat ∈ opTable.map fun r => r.op.toNat := by
    rw [opField_toNat]
    simp only [List.mem_cons, List.not_mem_nil, or_false] at hfields
    simp only [opTable, List.map_cons, List.map_nil, List.mem_cons, List.not_mem_nil, or_false, BitVec.reduceToNat]
    omega
  obtain ⟨r, hr, hr'⟩ := List.mem_map.1 hop
  exact ⟨r, hr, BitVec.eq_of_toNat_eq hr'⟩

end Sys2Proof

namespace Sys2Proof.Machine

open Sys2Proof Sys2Proof.Claims

/-! ### Commands that raise an error -/

/-- A well-formed command whose body raises an error fails with it (60_exceptions.md R211, R214). -/
theorem exec_of_bodyOf_error {i : Instr} {s : State} {c : CmdError} (hwf : i.wf = true) (h : bodyOf s i = .error c) :
    exec i s = .next (failed c s) := by
  rw [exec_eq_runCommand, hwf, h]
  rfl

/-- KDF checks its length first (43_kdf.md R202, R209). -/
theorem kdfBody_eq_kdfOvf {s : State} (h : Kdf.lengthLimit ≤ s.klen) : kdfBody s = .error .kdfOvf := if_pos h

/-- KDF of a length within the limit checks both its ranges (43_kdf.md R209). -/
theorem kdfBody_eq_range {s : State} (hk : s.klen < Kdf.lengthLimit)
    (h : s.dbuf.size < s.src.toNat + s.len.toNat ∨ s.dbuf.size < s.dst.toNat + (s.klen + 7) / 8) :
    kdfBody s = .error .range := by
  rw [kdfBody, if_neg (Nat.not_le.2 hk)]
  obtain h | h := h <;> simp [Memory.inRange, Nat.not_le.2 h]

/-- HASH checks both its ranges (42_sm3.md R182). -/
theorem hashBody_eq_range {s : State}
    (h : s.dbuf.size < s.src.toNat + s.len.toNat ∨ s.dbuf.size < s.dst.toNat + 32) : hashBody s = .error .range := by
  unfold hashBody
  obtain h | h := h <;> simp [Memory.inRange, Nat.not_le.2 h]

/-- PSTORE refuses Infinity, whatever its range (41_curve.md R150). -/
theorem pstoreBody_eq_infEncode {s : State} {a : Nibble} (h : (s.readTriple a).inf = true) :
    pstoreBody a s = .error .infEncode := if_pos h

/-- PSTORE of a finite point checks its range (41_curve.md R150). -/
theorem pstoreBody_eq_range {s : State} {a : Nibble} (hinf : (s.readTriple a).inf = false)
    (h : s.dbuf.size < s.dst.toNat + 64) : pstoreBody a s = .error .range := by
  simp [pstoreBody, Memory.inRange, hinf, h]

/-- PLOAD checks its range (41_curve.md R151). -/
theorem ploadBody_eq_range {s : State} {d : Nibble} (h : s.dbuf.size < s.src.toNat + 64) :
    ploadBody d s = .error .range := by
  simp [ploadBody, Memory.inRange, h]

/-- The operand that names a register reads its triple. -/
theorem readTriple_reg (s : State) (a : Fin 4) : s.readTriple (reg a) = s.p[a] := by
  have h : pIndex (reg a) = a := by revert a; decide
  simp only [State.readTriple, h]

/-- The engine's turn on a word that does not decode completes it with ILLEGAL (R96). -/
theorem engineTurn_of_decode_error {s : State} {c : Word} {e : DecodeError} (hr : s.inReset = false)
    (hc : s.engine = .busy c) (he : decode c = .error e) : engineTurn s = .next (s.raiseCmdError .illegal) := by
  simp [engineTurn, hr, hc, he]

end Sys2Proof.Machine

/-! ### The statements -/

namespace Sys2Proof.Proofs

open Sys2Proof Sys2Proof.Machine Sys2Proof.Claims

/-- Settles O1: the row of its opcode makes the command again of the fields of its word. -/
theorem decodeOfEncodedCommand : Obligations.DecodeOfEncodedCommand := by
  intro i hwf
  obtain ⟨r, hr, ⟨hd, ha, hb⟩, hmake⟩ := row_of_wf hwf
  rw [decode_of_row hr (rsvField_encode i) hd ha hb, hmake]

/-- Settles O2: a row makes a well-formed command, whose word has the fields it was made of. -/
theorem decodedWordEncodesBack : Obligations.DecodedWordEncodesBack := by
  intro w i h
  obtain ⟨hrsv, r, hr, hop, hadmits, rfl⟩ := decode_eq_ok_iff.1 h
  obtain ⟨hwf, hencode⟩ := wf_encode_make hr hadmits
  exact ⟨hwf, by rw [hencode, hop, packWord_fields hrsv]⟩

/-- Settles O3: a word with RSV = 0 is packed of its fields, and is legal when the row of its opcode admits them. -/
theorem decodeAcceptsExactlyTheLegalWords : Obligations.DecodeAcceptsExactlyTheLegalWords := by
  intro w
  constructor
  · rintro ⟨i, h⟩
    obtain ⟨hrsv, r, hr, hop, hadmits, -⟩ := decode_eq_ok_iff.1 h
    rwa [← legalWord_packWord_iff hr, hop, packWord_fields hrsv] at hadmits
  · intro h
    obtain ⟨hrsv, r, hr, hop⟩ := exists_row_of_legalWord h
    rw [← packWord_fields hrsv, ← hop, legalWord_packWord_iff hr] at h
    exact ⟨_, decode_eq_ok_iff.2 ⟨hrsv, r, hr, hop, h, rfl⟩⟩

/-- Settles O7: the write is an acceptance, and the engine's turn finds a word that does not decode. -/
theorem illegalWordCompletesWithIllegal : Obligations.IllegalWordCompletesWithIllegal := by
  intro s c rest hi hr hl
  obtain ⟨e, he⟩ : ∃ e, decode c = .error e := by
    cases hd : decode c with
    | error e => exact ⟨e, rfl⟩
    | ok i => exact absurd ((decodeAcceptsExactlyTheLegalWords c).1 ⟨i, hd⟩) hl
  have haccept : step { s with events := .hostWrite 0x010 .w32 c :: .engineTurn :: rest } =
      .next (State.accept c { s with events := .engineTurn :: rest }) :=
    congrArg Host.Outcome.next (hostWrite_reg .cmd c rfl hr (.inl hi))
  have hturn : engineTurn (State.accept c { s with events := rest }) =
      .next (State.raiseCmdError .illegal (State.accept c { s with events := rest })) :=
    engineTurn_of_decode_error hr rfl he
  refine ⟨_, haccept, rfl, rfl, hturn.trans ?_⟩
  simp only [State.raiseCmdError, State.accept, hi]

/-- Settles O10: a command is legal before its body runs, and each body makes its checks in that order. -/
theorem errorsComeInPriorityOrder : Obligations.ErrorsComeInPriorityOrder := by
  refine ⟨fun i s hwf => ?_, fun s h => ?_, fun s hk h => ?_, fun s a h => ?_, fun s a hinf h => ?_, fun s d h => ?_,
    fun s h => ?_⟩
  · rw [exec_eq_runCommand, hwf]
    rfl
  · exact exec_of_bodyOf_error rfl (kdfBody_eq_kdfOvf h)
  · exact exec_of_bodyOf_error rfl (kdfBody_eq_range hk h)
  · exact exec_of_bodyOf_error (isP_reg a) (pstoreBody_eq_infEncode (by rw [readTriple_reg, h]))
  · exact exec_of_bodyOf_error (isP_reg a) (pstoreBody_eq_range (by rw [readTriple_reg, hinf]) h)
  · exact exec_of_bodyOf_error (isP_reg d) (ploadBody_eq_range h)
  · exact exec_of_bodyOf_error rfl (hashBody_eq_range h)

/-- Settles O4: each command's word is packed of its fields, and a packed word is their sum. -/
theorem commandWordIsTheSumOfItsFields : Obligations.CommandWordIsTheSumOfItsFields := by
  refine ⟨fun d a b => ?_, by decide, by decide⟩
  simp [encode, packWord_toNat]

/-- Settles O5: nine closed words. -/
theorem writtenWordsDecode : Obligations.WrittenWordsDecode := by
  unfold Obligations.WrittenWordsDecode
  decide

end Sys2Proof.Proofs
end

section
/-! PROOF. The family of 40_field.md: what the general and field commands write into F. The operands and the inverse
stand first, then what such a command does, then the statements. -/

namespace Sys2Proof.Machine

open Sys2Proof Sys2Proof.Claims

/-! ### Field operands and the constant selector -/

/-- A register number 0..7 is a legal field operand (30_encoding.md R91). -/
theorem isF_reg (a : Fin 8) : isF (reg a) = true := by revert a; decide

/-- A number 0..5 is a legal constant selector (30_encoding.md R91). -/
theorem isC_reg (c : Fin 6) : isC (reg c) = true := by revert c; decide

/-- A legal field operand is its register number. -/
theorem fIndex_reg (a : Fin 8) : fIndex (reg a) = a := by revert a; decide

/-- The operand that names a field register reads it. -/
theorem readF_reg (s : State) (a : Fin 8) : s.readF (reg a) = s.f[a] := by
  simp only [State.readF, fIndex_reg]

/-- The selector picks its constant of 41_curve.md R130. -/
theorem curveConst_reg (c : Fin 6) : curveConst (reg c) = constants[c] := by revert c; decide

/-- Two field operands are legal. -/
theorem isF_reg_two (d a : Fin 8) : (isF (reg d) && isF (reg a)) = true := by rw [isF_reg, isF_reg]; rfl

/-- Three field operands are legal. -/
theorem isF_reg_three (d a b : Fin 8) : (isF (reg d) && isF (reg a) && isF (reg b)) = true := by
  rw [isF_reg_two, isF_reg]
  rfl

/-! ### The inverse -/

/-- The exponent of R111 is not 0. -/
theorem rom_p_sub_two_ne_zero : Rom.p - 2 ≠ 0 := by decide +kernel

/-- A power of a number with remainder 1 has remainder 1. -/
theorem pow_mod_eq_one {v m : Nat} (hm : 1 < m) (h : v % m = 1) (e : Nat) : v ^ e % m = 1 := by
  rw [Nat.pow_mod, h, one_pow, Nat.mod_eq_of_lt hm]

/-- The inverse of a multiple of p is 0 (R111). -/
theorem invP_of_mod_eq_zero {v : Nat} (h : v % Rom.p = 0) : invP v = 0 := by
  rw [invP_eq]
  exact Nat.mod_eq_zero_of_dvd ((Nat.dvd_of_mod_eq_zero h).trans (dvd_pow_self v rom_p_sub_two_ne_zero))

/-- The inverse of a number with remainder 1 is 1 (R111). -/
theorem invP_of_mod_eq_one {v : Nat} (h : v % Rom.p = 1) : invP v = 1 := by
  rw [invP_eq]
  exact pow_mod_eq_one (by decide +kernel) h _

/-! ### What a command does to F -/

/-- A well-formed command whose body succeeds completes with the state it gives (60_exceptions.md R211). -/
theorem exec_of_bodyOf_ok {i : Instr} {s u : State} (hwf : i.wf = true) (h : bodyOf s i = .ok u) :
    exec i s = .next u.complete := by
  rw [exec_eq_runCommand, hwf, h, runCommand_ok]

/-- A well-formed command whose body writes one field register writes that register and nothing else. -/
theorem writesF_of_bodyOf {i : Instr} {s : State} {d : Fin 8} {v : U256} (hwf : i.wf = true)
    (h : bodyOf s i = .ok (s.writeF (reg d) v)) : WritesF i s d v := by
  refine ⟨_, exec_of_bodyOf_ok hwf h, rfl, fun j => ?_⟩
  simp only [State.complete_f, State.writeF_f, fIndex_reg, Fin.getElem_fin, Vector.getElem_set, Fin.ext_iff, eq_comm]

/-- The body of a field command makes new field registers and no error, the same ones whatever DBUF holds (R119). -/
theorem bodyOf_fieldCommand {i : Instr} (hi : isFieldCommand i = true) (s : State) :
    ∃ u, bodyOf s i = .ok u ∧ u = { s with f := u.f } ∧
      ∀ m, bodyOf { s with dbuf := m } i = .ok { u with dbuf := m } := by
  cases i
  case nop | fldc | fmov | madd | msub | mmul | minv => exact ⟨_, rfl, rfl, fun _ => rfl⟩
  all_goals cases hi

end Sys2Proof.Machine

/-! ### The statements -/

namespace Sys2Proof.Proofs

open Sys2Proof Sys2Proof.Machine Sys2Proof.Claims

/-- Settles O34: the body writes the reduced sum of the two operands. -/
theorem maddReducesTheExactSum : Obligations.MaddReducesTheExactSum := fun s d a b =>
  ⟨addP s.f[a] s.f[b], addP_toNat _ _,
    writesF_of_bodyOf (isF_reg_three d a b) (by rw [bodyOf, readF_reg, readF_reg])⟩

/-- Settles O35: the body writes the remainder of the integer difference. -/
theorem msubReducesTheExactDifference : Obligations.MsubReducesTheExactDifference := fun s d a b =>
  ⟨subP s.f[a] s.f[b], subP_toNat _ _,
    writesF_of_bodyOf (isF_reg_three d a b) (by rw [bodyOf, readF_reg, readF_reg])⟩

/-- Settles O36: the body writes the reduced product of the two operands. -/
theorem mmulReducesTheExactProduct : Obligations.MmulReducesTheExactProduct := fun s d a b =>
  ⟨mulP s.f[a] s.f[b], mulP_toNat _ _,
    writesF_of_bodyOf (isF_reg_three d a b) (by rw [bodyOf, readF_reg, readF_reg])⟩

/-- Settles O37: the body writes the inverse, which is the power of R111 with its two corners. -/
theorem minvIsTheFermatPower : Obligations.MinvIsTheFermatPower := by
  intro s d a
  refine ⟨BitVec.ofNat 256 (invP s.f[a].toNat), ?_, fun h => ?_, fun h => ?_,
    writesF_of_bodyOf (isF_reg_two d a) (by rw [bodyOf, readF_reg])⟩
  · rw [toNat_ofNat_of_lt_p (invP_lt _), invP_eq]
  · rw [invP_of_mod_eq_zero h]
    rfl
  · rw [invP_of_mod_eq_one h]
    rfl

/-- Settles O38: a legal field command completes with the F of its body, an illegal one fails with ILLEGAL, and neither
looks at DBUF. -/
theorem fieldCommandsTouchFieldRegistersOnly : Obligations.FieldCommandsTouchFieldRegistersOnly := by
  intro i s hi
  cases hwf : i.wf with
  | true =>
    obtain ⟨u, hu, hframe, hdbuf⟩ := bodyOf_fieldCommand hi s
    exact ⟨_, exec_of_bodyOf_ok hwf hu, .inl (congrArg State.complete hframe),
      fun m => exec_of_bodyOf_ok hwf (hdbuf m)⟩
  | false =>
    obtain ⟨hillegal, -⟩ := errorsComeInPriorityOrder
    exact ⟨_, hillegal i s hwf, .inr rfl, fun m => hillegal i _ hwf⟩

/-- Settles O33: NOP's body is the state it finds, the other two write the constant or the operand as it is. -/
theorem generalCommandsCopyVerbatim : Obligations.GeneralCommandsCopyVerbatim := by
  refine ⟨fun s => exec_of_bodyOf_ok rfl rfl, fun s d c => ?_, fun s d a => ?_⟩
  · have hwf : (isF (reg d) && isC (reg c)) = true := by rw [isF_reg, isC_reg]; rfl
    exact writesF_of_bodyOf hwf (by rw [bodyOf, curveConst_reg])
  · exact writesF_of_bodyOf (isF_reg_two d a) (by rw [bodyOf, readF_reg])

end Sys2Proof.Proofs
end

section
/-! PROOF. The family of 41_curve.md: the point functions and the point commands. The point functions stand first, then
the encoding of a point, then what a point command does, then the statements. -/

namespace Sys2Proof.Machine

open Sys2Proof Sys2Proof.Claims

/-! ### Point values -/

/-- The statements' reduced points are the canonical ones (00_scope.md R14). -/
theorem reduced_iff_isCanon (q : Point) : Reduced q ↔ q.isCanon := by cases q <;> rfl

/-- The triple a command writes for a point value (10_state.md R36). -/
theorem Point.toReg_eq_tripleOf (q : Point) : q.toReg = tripleOf q := by cases q <;> rfl

/-! ### Addition (41_curve.md R133) -/

/-- The slope of the tangent, with the inverse as the Fermat power. -/
theorem tangentSlope_eq_inverse (x y : Nat) : (tangentSlope x y : Int) =
    (3 * (x : Int) ^ 2 + (Rom.a : Int)) * inverse (2 * (y : Int)) % (Rom.p : Int) := by
  rw [tangentSlope_cast, invP_natCast, Nat.cast_mul, Nat.cast_ofNat, inverse]

/-- The slope of the line through two points, with the inverse as the Fermat power. -/
theorem lineSlope_eq_inverse (x1 y1 x2 y2 : Nat) : (lineSlope x1 y1 x2 y2 : Int) =
    ((y2 : Int) - (y1 : Int)) * inverse ((x2 : Int) - (x1 : Int)) % (Rom.p : Int) := by
  rw [lineSlope_cast, invP_modP, inverse]

/-- A point and itself: the tangent. -/
theorem Point.add_self (x y : U256) :
    Point.add (.finite x y) (.finite x y) = chord (tangentSlope x.toNat y.toNat) x.toNat y.toNat x.toNat := by
  rw [Point.add, if_pos rfl, if_pos rfl]

/-- Two points of one x coordinate: they cancel. -/
theorem Point.add_of_y_ne (x : U256) {y1 y2 : U256} (h : y1 ≠ y2) :
    Point.add (.finite x y1) (.finite x y2) = .infinity := by
  rw [Point.add, if_pos rfl, if_neg h]

/-- Two points of different x coordinates: the line through them. -/
theorem Point.add_of_x_ne {x1 x2 : U256} (y1 y2 : U256) (h : x1 ≠ x2) : Point.add (.finite x1 y1) (.finite x2 y2) =
    chord (lineSlope x1.toNat y1.toNat x2.toNat y2.toNat) x1.toNat y1.toNat x2.toNat := by
  rw [Point.add, if_neg h]

/-! ### Doubling (41_curve.md R134) -/

/-- The tangent at a point of y = 0 has slope 0, as the inverse of 0 is 0 (40_field.md R111). -/
theorem tangentSlope_y_zero (x : Nat) : tangentSlope x 0 = 0 := by
  rw [tangentSlope, invP_of_mod_eq_zero (Nat.zero_mod _), Nat.mul_zero, Nat.zero_mod]

/-- The double of a point of y = 0. -/
theorem Point.double_y_zero (x : U256) : ∃ x3 : U256, Point.double (.finite x 0) = .finite x3 0 ∧
    (x3.toNat : Int) = (-2 * (x.toNat : Int)) % (Rom.p : Int) := by
  obtain ⟨x3, y3, hsum, hx3, hy3⟩ := chord_spec 0 x.toNat 0 x.toNat
  have hy3_zero : y3 = 0 := by
    refine BitVec.eq_of_toNat_eq ?_
    simpa using hy3
  refine ⟨x3, ?_, ?_⟩
  · rw [Point.double, Point.add_self, show (0 : U256).toNat = 0 from rfl, tangentSlope_y_zero, hsum, hy3_zero]
  · rw [hx3]
    congr 1
    push_cast
    ring

/-! ### Scalar multiplication (41_curve.md R135) -/

/-- Doubling Infinity and adding it gives Infinity in every round. -/
theorem smulLoop_infinity (k : U256) (n i : Nat) : smulLoop k n i .infinity .infinity = .infinity := by
  induction n generalizing i with
  | zero => rfl
  | succ n ih => rw [smulLoop, Point.infinity_add, ite_self, ih]

/-- 0·P takes no round. -/
theorem Point.zero_smul (q : Point) : Point.smul 0 q = .infinity := by
  have hbits : (0 : U256).toNat < 2 ^ 0 := by decide
  rw [smul_eq_smulLoop 0 q 0 (Nat.zero_le _) hbits, smulLoop]

/-- 1·P takes one round. -/
theorem Point.one_smul (q : Point) : Point.smul 1 q = q := by
  rw [smul_eq_smulLoop 1 q 1 (by decide) (by decide)]
  exact Point.infinity_add q

/-! ### Negation (41_curve.md R136) -/

/-- The y coordinate of the negated point, as a natural number. -/
theorem modP_p_sub {y : Nat} (h : y < Rom.p) : modP ((Rom.p : Int) - (y : Int)) = (Rom.p - y) % Rom.p := by
  have hcast : (Rom.p : Int) - (y : Int) = ((Rom.p - y : Nat) : Int) := (Int.ofNat_sub h.le).symm
  rw [modP, hcast, ← Int.natCast_mod, Int.toNat_natCast]

/-- The prime is odd, so no y but 0 is its own negative. -/
theorem neg_y_ne_self {y : Nat} (hy : y < Rom.p) (h0 : y ≠ 0) : (Rom.p - y) % Rom.p ≠ y := by
  have hodd : Rom.p % 2 = 1 := by decide +kernel
  rw [Nat.mod_eq_of_lt (by omega)]
  omega

/-! ### The curve equation (41_curve.md R137) -/

/-- The difference of the two sides of the curve equation. -/
def curveEquation (x y : Int) : Int := y ^ 2 - (x ^ 3 + (Rom.a : Int) * x + (Rom.b : Int))

/-- The two sides agree mod p for coordinates exactly when they do for their remainders. -/
theorem curveEquation_mod (x y : Int) :
    curveEquation (x % (Rom.p : Int)) (y % (Rom.p : Int)) ≡ curveEquation x y [ZMOD (Rom.p : Int)] := by
  have hx := Int.mod_modEq x (Rom.p : Int)
  have hy := Int.mod_modEq y (Rom.p : Int)
  exact (hy.pow 2).sub (((hx.pow 3).add (hx.mul_left _)).add_right _)

/-- A remainder is 0 exactly for the multiples of p. -/
theorem modP_eq_zero_iff (z : Int) : modP z = 0 ↔ (Rom.p : Int) ∣ z := by
  rw [Int.dvd_iff_emod_eq_zero, ← modP_cast, Int.natCast_eq_zero]

/-- The point of a triple lies on the curve when it is finite and its coordinates, reduced or not, satisfy the
equation. -/
theorem onCurve_canonOf (r : PointReg) : (canonOf r).onCurve = true ↔
    r.inf = false ∧ (Rom.p : Int) ∣ curveEquation r.x.toNat r.y.toNat := by
  obtain ⟨_ | _, x, y⟩ := r
  · have hcoords (v : U256) : ((BitVec.ofNat 256 (v.toNat % Rom.p)).toNat : Int) = (v.toNat : Int) % (Rom.p : Int) := by
      rw [toNat_ofNat_of_lt_p (Nat.mod_lt _ rom_p_pos), Int.natCast_mod]
    have hcurve : (canonOf ⟨false, x, y⟩).onCurve =
        decide (modP (curveEquation (x.toNat % (Rom.p : Int)) (y.toNat % (Rom.p : Int))) = 0) := by
      rw [← hcoords, ← hcoords]
      rfl
    rw [hcurve, decide_eq_true_iff, modP_eq_zero_iff, (curveEquation_mod _ _).dvd_iff]
    exact (and_iff_right rfl).symm
  · simp [canonOf, Point.onCurve]

/-! ### The encoding of a point (41_curve.md R138) -/

/-- Byte `i` of `be_32`. -/
theorem beBytes_getElem_eq_byteOf (v : U256) {i : Nat} (h : i < (beBytes 32 v.toNat).length) :
    (beBytes 32 v.toNat)[i] = byteOf v i := by
  rw [beBytes_getElem]
  rfl

/-- The value of 32 bytes has those bytes. -/
theorem byteOf_intBe {bytes : List Byte} (hlen : bytes.length = 32) {i : Nat} (h : i < bytes.length) :
    byteOf (BitVec.ofNat 256 (intBe bytes)) i = bytes[i] := by
  have hval : (BitVec.ofNat 256 (intBe bytes)).toNat = intBe bytes := by
    have hlt := intBe_lt bytes
    rw [hlen] at hlt
    rw [BitVec.toNat_ofNat, Nat.mod_eq_of_lt (lt_of_lt_of_eq hlt (by norm_num))]
  have hbytes : beBytes 32 (BitVec.ofNat 256 (intBe bytes)).toNat = bytes := by
    rw [hval, ← hlen, beBytes_intBe]
  rw [← beBytes_getElem_eq_byteOf _ (by rw [hbytes]; exact h)]
  simp only [hbytes]

/-- `be_32` of a value reads back as that value. -/
theorem ofNat_intBe_beBytes (v : U256) : BitVec.ofNat 256 (intBe (beBytes 32 v.toNat)) = v := by
  rw [intBe_beBytes 32 v.toNat (lt_of_lt_of_eq v.isLt (by norm_num)), BitVec.ofNat_toNat, BitVec.setWidth_eq]

@[simp] theorem encodePoint_length (x y : U256) : (encodePoint x y).length = 64 := by simp [encodePoint]

/-- The first 32 bytes of an encoded point are those of X. -/
theorem encodePoint_getElem_x (x y : U256) {i : Nat} (h : i < 32) :
    (encodePoint x y)[i]'(by rw [encodePoint_length]; omega) = byteOf x i := by
  have hi : i < (beBytes 32 x.toNat).length := by rwa [beBytes_length]
  exact (List.getElem_append_left hi).trans (beBytes_getElem_eq_byteOf x hi)

/-- The last 32 bytes of an encoded point are those of Y. -/
theorem encodePoint_getElem_y (x y : U256) {i : Nat} (h : i < 32) :
    (encodePoint x y)[32 + i]'(by rw [encodePoint_length]; omega) = byteOf y i := by
  simp only [encodePoint]
  rw [List.getElem_append_right (by simp)]
  simp only [beBytes_length, Nat.add_sub_cancel_left]
  exact beBytes_getElem_eq_byteOf y _

/-- Decoding an encoded point gives it back. -/
theorem decodePoint_encodePoint (x y : U256) : decodePoint (encodePoint x y) = .finite x y := by
  have hx : (encodePoint x y).take 32 = beBytes 32 x.toNat := List.take_left' (beBytes_length _ _)
  have hy : ((encodePoint x y).drop 32).take 32 = beBytes 32 y.toNat := by
    rw [encodePoint, List.drop_left' (beBytes_length _ _), List.take_of_length_le (beBytes_length _ _).le]
  rw [decodePoint, hx, hy, ofNat_intBe_beBytes, ofNat_intBe_beBytes]

/-- The point 64 bytes of DBUF encode is finite, and its coordinates have those bytes. -/
theorem decodePoint_readBytes (m : Memory) (o : Nat) : ∃ x y : U256, decodePoint (m.readBytes o 64) = .finite x y ∧
    (∀ i < 32, byteOf x i = m.read (o + i)) ∧ ∀ i < 32, byteOf y i = m.read (o + 32 + i) := by
  refine ⟨_, _, rfl, fun i hi => ?_, fun i hi => ?_⟩
  · rw [byteOf_intBe (by simp) (by simpa using hi), List.getElem_take, Memory.readBytes_getElem]
  · rw [byteOf_intBe (by simp) (by simpa using hi), List.getElem_take, List.getElem_drop, Memory.readBytes_getElem,
      Nat.add_assoc]

/-- The bytes of an encoded point, just stored, decode to that point. -/
theorem decodePoint_readBytes_writeBytes (m : Memory) (o : Nat) (x y : U256) :
    decodePoint ((m.writeBytes o (encodePoint x y)).readBytes o 64) = .finite x y := by
  rw [← encodePoint_length x y, Memory.readBytes_writeBytes, decodePoint_encodePoint]

/-! ### What a point command does -/

/-- A legal point operand is its register number. -/
theorem pIndex_reg (a : Fin 4) : pIndex (reg a) = a := by revert a; decide

/-- Two point operands are legal. -/
theorem isP_reg_two (d a : Fin 4) : (isP (reg d) && isP (reg a)) = true := by rw [isP_reg, isP_reg]; rfl

/-- Three point operands are legal. -/
theorem isP_reg_three (d a b : Fin 4) : (isP (reg d) && isP (reg a) && isP (reg b)) = true := by
  rw [isP_reg_two, isP_reg]
  rfl

/-- The operand that names a point register is read as the canonical value of its triple (41_curve.md R132). -/
theorem readCanon_reg (s : State) (a : Fin 4) : s.readCanon (reg a) = canonOf s.p[a] := by
  rw [State.readCanon, State.readP, PointReg.value_canon, readTriple_reg]

/-- A well-formed command whose body writes one triple writes that register and nothing else. -/
theorem writesP_of_writeTriple {i : Instr} {s : State} {d : Fin 4} {r : PointReg} (hwf : i.wf = true)
    (h : bodyOf s i = .ok (s.writeTriple (reg d) r)) : WritesP i s d r := by
  refine ⟨_, exec_of_bodyOf_ok hwf h, rfl, fun j => ?_⟩
  simp only [State.complete_p, State.writeTriple_p, pIndex_reg, Fin.getElem_fin, Vector.getElem_set, Fin.ext_iff, eq_comm]

/-- A well-formed command whose body writes one point value writes its triple and nothing else. -/
theorem writesP_of_writeP {i : Instr} {s : State} {d : Fin 4} {q : Point} (hwf : i.wf = true)
    (h : bodyOf s i = .ok (s.writeP (reg d) q)) : WritesP i s d (tripleOf q) :=
  Point.toReg_eq_tripleOf q ▸ writesP_of_writeTriple hwf h

/-- PNEG writes the negative of its canonical operand (41_curve.md R145). -/
theorem writesP_pneg (s : State) (d a : Fin 4) :
    WritesP (.pneg (reg d) (reg a)) s d (tripleOf (canonOf s.p[a]).negate) :=
  writesP_of_writeP (isP_reg_two d a) (by rw [bodyOf, readCanon_reg])

/-- PSTORE of a finite point that fits stores its encoding (41_curve.md R150). -/
theorem exec_pstore {s : State} {a : Fin 4} (hinf : s.p[a].inf = false) (hfit : s.dst.toNat + 64 ≤ s.dbuf.size) :
    exec (.pstore (reg a)) s = .next (s.memWrite s.dst.toNat (encodePoint s.p[a].x s.p[a].y)).complete := by
  refine exec_of_bodyOf_ok (isP_reg a) ?_
  rw [bodyOf, pstoreBody, readTriple_reg, hinf]
  exact if_pos (decide_eq_true hfit)

/-- PLOAD of 64 bytes of DBUF writes the point they encode (41_curve.md R151). -/
theorem writesP_pload {s : State} (d : Fin 4) {x y : U256} (hfit : s.src.toNat + 64 ≤ s.dbuf.size)
    (hpoint : decodePoint (s.dbuf.readBytes s.src.toNat 64) = .finite x y) :
    WritesP (.pload (reg d)) s d ⟨false, x, y⟩ := by
  refine writesP_of_writeP (q := .finite x y) (isP_reg d) ?_
  rw [bodyOf, ploadBody, State.memRead, hpoint]
  exact if_pos (decide_eq_true hfit)

end Sys2Proof.Machine

/-! ### The statements -/

namespace Sys2Proof.Proofs

open Sys2Proof Sys2Proof.Machine Sys2Proof.Claims

/-- Settles O39: the body of each writes the point or the triple it names. -/
theorem pointMovesCopyVerbatim : Obligations.PointMovesCopyVerbatim := by
  refine ⟨fun s d => ?_, fun s d => ?_, fun s d a => ?_, fun s d a b => ?_⟩
  · exact writesP_of_writeTriple (isP_reg d) rfl
  · exact writesP_of_writeTriple (isP_reg d) rfl
  · exact writesP_of_writeTriple (isP_reg_two d a) (by rw [bodyOf, readTriple_reg])
  · have hwf : (isP (reg d) && isF (reg a) && isF (reg b)) = true := by rw [isP_reg, isF_reg, isF_reg]; rfl
    exact writesP_of_writeP (q := .finite s.f[a] s.f[b]) hwf (by rw [bodyOf, readF_reg, readF_reg])

/-- Settles O40: the body of each writes the stored coordinate, whatever the tag. -/
theorem coordinateReadsCopyVerbatim : Obligations.CoordinateReadsCopyVerbatim := by
  intro s d a
  have hwf : (isF (reg d) && isP (reg a)) = true := by rw [isF_reg, isP_reg]; rfl
  exact ⟨writesF_of_bodyOf hwf (by rw [bodyOf, readTriple_reg]), writesF_of_bodyOf hwf (by rw [bodyOf, readTriple_reg])⟩

/-- Settles O41: the canonical operand's negative, for either value of the tag. -/
theorem pnegNegatesTheCanonicalPoint : Obligations.PnegNegatesTheCanonicalPoint := by
  intro s d a
  have hp := writesP_pneg s d a
  refine ⟨fun hinf => ?_, fun hinf => ?_⟩
  · rwa [canonOf, if_pos hinf] at hp
  · rw [canonOf, if_neg (by rw [hinf]; decide)] at hp
    have hy := Nat.mod_lt s.p[a].y.toNat rom_p_pos
    refine ⟨_, _, toNat_ofNat_of_lt_p (Nat.mod_lt _ rom_p_pos), ?_, hp⟩
    rw [toNat_ofNat_of_lt_p (modP_lt _), toNat_ofNat_of_lt_p hy, modP_p_sub hy]

/-- Settles O42: the branches of the addition, each slope as the Fermat power it is. -/
theorem additionFollowsChordAndTangent : Obligations.AdditionFollowsChordAndTangent := by
  refine ⟨fun q => ⟨q.infinity_add, q.add_infinity⟩, fun x1 y1 x2 y2 => ⟨?_, fun l hl => ?_⟩, fun q r hq hr => ?_⟩
  · rintro rfl hy
    exact Point.add_of_y_ne x1 hy
  · obtain ⟨rfl, rfl, hslope⟩ | ⟨hx, hslope⟩ := hl
    · rw [← tangentSlope_eq_inverse, Int.natCast_inj] at hslope
      rw [hslope, Point.add_self]
      exact chord_spec _ _ _ _
    · rw [← lineSlope_eq_inverse, Int.natCast_inj] at hslope
      rw [hslope, Point.add_of_x_ne _ _ hx]
      exact chord_spec _ _ _ _
  · rw [reduced_iff_isCanon] at hq hr ⊢
    exact Point.isCanon_add hq hr

/-- Settles O43: doubling is defined as addition to itself, and the example is the corner y = 0 at x = 5. -/
theorem doublingIsAdditionToItself : Obligations.DoublingIsAdditionToItself := by
  refine ⟨fun q => rfl, rfl, fun x _ => Point.double_y_zero x, ?_⟩
  obtain ⟨x3, hdouble, hx3⟩ := Point.double_y_zero 5
  rw [hdouble]
  congr 1
  refine BitVec.eq_of_toNat_eq (Int.natCast_inj.1 (hx3.trans ?_))
  decide +kernel

/-- Settles O44: the loop as a fold, cut after the bits below the scalar's length. -/
theorem scalarMultiplicationIsDoubleAndAdd : Obligations.ScalarMultiplicationIsDoubleAndAdd := by
  refine ⟨fun k q m hm hk => ?_, fun q => ⟨q.zero_smul, q.one_smul⟩, fun k => smulLoop_infinity k 256 0,
    fun k q hq => ?_⟩
  · rw [smul_eq_smulLoop k q m hm hk, smulLoop_eq_foldl, List.range_eq_range']
  · rw [reduced_iff_isCanon] at hq ⊢
    exact isCanon_smulLoop k 256 0 trivial hq

/-- Settles O45: the body of each writes its function of the canonical operands, and the two bodies of C10 are one. -/
theorem pointArithmeticWritesItsFunction : Obligations.PointArithmeticWritesItsFunction := by
  intro s d a b k
  have hmul : (isP (reg d) && isF (reg k) && isP (reg b)) = true := by rw [isP_reg, isF_reg, isP_reg]; rfl
  refine ⟨?_, ?_, ?_, ?_⟩
  · exact writesP_of_writeP (isP_reg_three d a b) (by rw [bodyOf, readCanon_reg, readCanon_reg])
  · exact writesP_of_writeP (isP_reg_two d a) (by rw [bodyOf, readCanon_reg])
  · exact writesP_of_writeP hmul (by rw [bodyOf, readF_reg, readCanon_reg])
  · rw [exec_of_bodyOf_ok (i := .pdbl _ _) (isP_reg_two d a) rfl,
      exec_of_bodyOf_ok (i := .padd _ _ _) (isP_reg_three d a a) rfl, Point.double]

/-- Settles O46: the two y coordinates differ, so the points cancel. -/
theorem negatedPointCancels : Obligations.NegatedPointCancels := by
  intro x y _ hy h0
  refine Point.add_of_y_ne x fun hself => ?_
  have hnat := congrArg BitVec.toNat hself
  rw [toNat_ofNat_of_lt_p (modP_lt _), modP_p_sub hy] at hnat
  exact neg_y_ne_self hy (fun h => h0 (BitVec.eq_of_toNat_eq h)) hnat.symm

/-- Settles O47: the body writes T only, with the test of the canonical operand. -/
theorem pchkTestsTheCurveEquation : Obligations.PchkTestsTheCurveEquation := by
  intro s a
  refine ⟨_, exec_of_bodyOf_ok (isP_reg a) rfl, rfl, ?_⟩
  change (s.readCanon (reg a)).onCurve = true ↔ _
  rw [readCanon_reg]
  exact onCurve_canonOf s.p[a]

/-- Settles O48: the bytes stored are those of the encoding, and DBUF keeps every other byte. -/
theorem pstoreWritesTheEncodedPoint : Obligations.PstoreWritesTheEncodedPoint := by
  intro s a hinf hfit
  refine ⟨_, exec_pstore hinf hfit, rfl, fun i hi => ?_, fun i hi => ?_, fun o ho => ?_, Memory.writeBytes_size _ _ _⟩
  · rw [State.complete_dbuf, State.memWrite_dbuf, Memory.read_writeBytes_inside _ _ _ i (by simp; omega),
      encodePoint_getElem_x _ _ hi]
  · rw [State.complete_dbuf, State.memWrite_dbuf, Nat.add_assoc,
      Memory.read_writeBytes_inside _ _ _ (32 + i) (by simp; omega), encodePoint_getElem_y _ _ hi]
  · exact Memory.read_writeBytes_outside _ _ _ _ (by rwa [encodePoint_length])

/-- Settles O49: the body writes the point the bytes read decode to. -/
theorem ploadReadsTheEncodedPoint : Obligations.PloadReadsTheEncodedPoint := by
  intro s d hfit
  obtain ⟨x, y, hpoint, hx, hy⟩ := decodePoint_readBytes s.dbuf s.src.toNat
  exact ⟨x, y, writesP_pload d hfit hpoint, hx, hy⟩

/-- Settles O50: the bytes read back are the encoding stored, which decodes to the point. -/
theorem storedPointLoadsBack : Obligations.StoredPointLoadsBack := by
  intro s t a d hinf hfit hstore
  have ht : t = (s.memWrite s.dst.toNat (encodePoint s.p[a].x s.p[a].y)).complete :=
    Host.Outcome.next.inj (hstore.symm.trans (exec_pstore hinf hfit))
  have hdbuf : t.dbuf = s.dbuf.writeBytes s.dst.toNat (encodePoint s.p[a].x s.p[a].y) := by
    rw [ht, State.complete_dbuf, State.memWrite_dbuf]
  have hload : WritesP (.pload (reg d)) { t with src := s.dst } d ⟨false, s.p[a].x, s.p[a].y⟩ := by
    refine writesP_pload d ?_ ?_
    · rwa [hdbuf, Memory.writeBytes_size]
    · rw [hdbuf, decodePoint_readBytes_writeBytes]
  obtain ⟨u, hu, -, hp⟩ := hload
  exact ⟨u, hu, by rw [hp d, if_pos rfl, ← hinf]⟩

end Sys2Proof.Proofs
end

section
/-! PROOF. The family of 42_sm3.md: the SM3 functions and the SM3 commands. The compression stands first, then the words
of a block, then what an SM3 command does, then the statements. -/

namespace Sys2Proof.Machine

open Sys2Proof Sys2Proof.Claims

/-! ### The compression function -/

/-- The schedule begins with the words of the block (42_sm3.md R176). -/
theorem Sm3.expand_getD_block (block : Vector Word 16) (k : Fin 16) :
    (Sm3.expand block.toList).getD k 0 = block[k] := by
  obtain ⟨-, hfirst, -⟩ := Sm3.expand_spec block.toList block.length_toList
  rw [hfirst k k.isLt]
  simp

/-- The compression from the working registers after the last round (42_sm3.md R177). -/
theorem Sm3.compress_of_rounds {v : Vector Word 8} {block : List Word} {r : Sm3.Regs} (h : Sm3.rounds v block = r) :
    Sm3.compress v block = #v[r.a ^^^ v[0], r.b ^^^ v[1], r.c ^^^ v[2], r.d ^^^ v[3],
      r.e ^^^ v[4], r.f ^^^ v[5], r.g ^^^ v[6], r.h ^^^ v[7]] := by
  subst h
  rfl

/-- The compression of the model is one the rules describe: its schedule and its registers round by round. -/
theorem compressesTo_compress (v : Vector Word 8) (block : Vector Word 16) :
    CompressesTo v block (Sm3.compress v block.toList) := by
  obtain ⟨-, -, hexpand⟩ := Sm3.expand_spec block.toList block.length_toList
  obtain ⟨r, hstart, hround, hend⟩ := Sm3.rounds_seq v block.toList
  refine ⟨fun i => (Sm3.expand block.toList).getD i 0, fun j => (r j).a, fun j => (r j).b, fun j => (r j).c,
    fun j => (r j).d, fun j => (r j).e, fun j => (r j).f, fun j => (r j).g, fun j => (r j).h,
    Sm3.expand_getD_block block, fun i h16 h68 => ?_, ?_, fun j hj => ?_, Sm3.compress_of_rounds hend⟩
  · simp only [hexpand i h16 h68, Sm3.expandWord, Sm3.perm1, Sm3.rotl_eq_rotateLeft]
  · simp [hstart]
  · simp only [hround j hj, Sm3.round, Sm3.ff, Sm3.gg, Sm3.roundConst, Sm3.perm0, Sm3.rotl_eq_rotateLeft, and_self]

/-! ### The words of a block -/

/-- Four bytes of a string, or fewer at its end, read as a number that fits a word. -/
theorem toNat_ofNat_intBe_take (bytes : List Byte) :
    (BitVec.ofNat 32 (intBe (bytes.take 4))).toNat = intBe (bytes.take 4) := by
  have hlen : (bytes.take 4).length ≤ 4 := List.length_take_le 4 bytes
  have hpow : 256 ^ (bytes.take 4).length ≤ 256 ^ 4 := Nat.pow_le_pow_right (by decide) hlen
  have hlt := intBe_lt (bytes.take 4)
  rw [BitVec.toNat_ofNat, Nat.mod_eq_of_lt (by omega)]

/-- A block is sixteen words, each the number of its four bytes (42_sm3.md R175). -/
theorem Sm3.exists_block (bytes : List Byte) (i : Nat) : ∃ block : Vector Word 16,
    block.toList = Sm3.blockWords bytes i ∧
      ∀ k : Fin 16, block[k].toNat = intBe ((bytes.drop (64 * i + 4 * k)).take 4) := by
  refine ⟨⟨(Sm3.blockWords bytes i).toArray, by simp [Sm3.blockWords]⟩, rfl, fun k => ?_⟩
  simpa [Sm3.blockWords] using toNat_ofNat_intBe_take _

/-! ### What an SM3 command does -/

/-- HASH of a source and a destination inside DBUF stores the digest of the source (42_sm3.md R182). -/
theorem exec_hash {s : State} (hsrc : s.src.toNat + s.len.toNat ≤ s.dbuf.size)
    (hdst : s.dst.toNat + 32 ≤ s.dbuf.size) :
    let m := s.memRead s.src.toNat s.len.toNat
    exec .hash s = .next { s.memWrite s.dst.toNat (Sm3.hash m) with v := Sm3.hashState m }.complete := by
  refine exec_of_bodyOf_ok rfl ?_
  simp [bodyOf, hashBody, Memory.inRange, hsrc, hdst, Sm3.hash]

end Sys2Proof.Machine

/-! ### The statements -/

namespace Sys2Proof.Proofs

open Sys2Proof Sys2Proof.Machine Sys2Proof.Claims

/-- Settles O51: the schedule and the registers of the model's own run are the ones asked for. -/
theorem compressionFollowsTheRounds : Obligations.CompressionFollowsTheRounds := compressesTo_compress

/-- Settles O52: the number of zero bytes is the remainder mod 64 of 55 - len, written without a negative number. -/
theorem paddingIsTheLeast : Obligations.PaddingIsTheLeast := by
  intro m
  have hlen := Sm3.pad_length m
  have hk : Sm3.padZeros m.length = (119 - m.length % 64) % 64 := rfl
  refine ⟨Sm3.padZeros m.length, rfl, by omega, fun k' hk' => by omega, Sm3.pad_length_mod m, fun h => by omega,
    fun h => by omega, fun h => ?_⟩
  rw [List.length_eq_zero_iff.1 h]
  decide

/-- Settles O53: the running states of the model's fold, each block as a vector of its words. -/
theorem hashChainsTheBlocks : Obligations.HashChainsTheBlocks := by
  intro m
  obtain ⟨v, hiv, hnext, hlast⟩ := Sm3.hashState_seq m
  refine ⟨v, hiv, fun i hi => ?_, Sm3.hash_length m, fun k => ?_⟩
  · obtain ⟨block, hblock, hwords⟩ := Sm3.exists_block (Sm3.pad m) i
    exact ⟨block, hwords, by rw [hnext i hi, hblock]⟩
  · rw [Sm3.hash, Sm3.digest_word, hlast]

/-- Settles O55: the digest is written whole, so DBUF holds its bytes and V its words, and every other byte is kept. -/
theorem hashWritesTheDigest : Obligations.HashWritesTheDigest := by
  intro s hsrc hdst
  refine ⟨_, exec_hash hsrc hdst, rfl, fun i hi => ?_, fun k => (Sm3.digest_word _ k).symm, fun o ho => ?_,
    Memory.writeBytes_size _ _ _⟩
  · have hi : i < (Sm3.hash (s.memRead s.src.toNat s.len.toNat)).length := by rwa [Sm3.hash_length]
    exact (Memory.read_writeBytes_inside _ _ _ i hi).trans (List.getD_eq_getElem _ _ hi).symm
  · exact Memory.read_writeBytes_outside _ _ _ _ (by rwa [Sm3.hash_length])

/-- Settles O54: the body of each writes V only, HCOMP the compression of O51. -/
theorem hinitAndHcompUpdateTheRunningState : Obligations.HinitAndHcompUpdateTheRunningState := fun s =>
  ⟨exec_of_bodyOf_ok (i := .hinit) rfl rfl,
    _, compressesTo_compress s.v s.b, exec_of_bodyOf_ok (i := .hcomp) rfl rfl⟩

end Sys2Proof.Proofs
end

section
/-! PROOF. The family of 43_kdf.md: the KDF function and the KDF command. The output of the function stands first, then
what the command does, then the statements. -/

namespace Sys2Proof.Machine

open Sys2Proof Sys2Proof.Claims

/-! ### The output of the function -/

/-- Bit q of byte j of the output: the bit of the key stream below klen, 0 from there on (43_kdf.md R200, R201). -/
theorem Kdf.output_getLsbD (z : List Byte) {klen j q : Nat} (hj : j < (klen + 7) / 8) (hq : q < 8) :
    ((Kdf.output z klen).getD j 0).getLsbD (7 - q) = (decide (8 * j + q < klen) && keyBit z j q) := by
  have hkey : klen ≤ 8 * (Kdf.expand z klen).1.length := by rw [Kdf.expand_length]; omega
  rw [Kdf.output, Kdf.truncate_getLsbD _ _ _ _ hkey hj hq, Kdf.expand_getD z klen j (by omega), keyBit]

/-- The counter KDF leaves, as a number (43_kdf.md R204). -/
theorem Kdf.counter_toNat (z : List Byte) (klen : Nat) :
    (Kdf.counter z klen).toNat = ((klen + 255) / 256 + 1) % 2 ^ 32 := by
  rw [Kdf.counter_eq, BitVec.toNat_ofNat]

/-- A byte is 0 when its eight bits are, counted from the most significant one. -/
theorem byte_eq_zero_iff (x : Byte) : x = 0 ↔ ∀ q < 8, x.getLsbD (7 - q) = false := by
  constructor
  · rintro rfl q -
    exact BitVec.getLsbD_zero
  · intro h
    refine BitVec.eq_of_getLsbD_eq fun i hi => ?_
    have hbit := h (7 - i) (by omega)
    rw [Nat.sub_sub_self (by omega)] at hbit
    exact hbit.trans BitVec.getLsbD_zero.symm

/-- The all-zero test asks for every byte by its place. -/
theorem Kdf.allZero_iff (k : List Byte) : Kdf.allZero k = true ↔ ∀ j < k.length, k.getD j 0 = 0 := by
  simp only [Kdf.allZero, List.all_eq_true, beq_iff_eq, List.forall_mem_iff_getElem]
  exact forall₂_congr fun j hj => by rw [List.getD_eq_getElem _ _ hj]

/-- The all-zero test of the output asks for the klen bits of the key stream (43_kdf.md R203). -/
theorem Kdf.allZero_output_iff (z : List Byte) (klen : Nat) : Kdf.allZero (Kdf.output z klen) = true ↔
    ∀ j q, q < 8 → 8 * j + q < klen → keyBit z j q = false := by
  simp only [Kdf.allZero_iff, Kdf.output_length, byte_eq_zero_iff]
  constructor
  · intro h j q hq hlt
    have hj : j < (klen + 7) / 8 := by omega
    have hbit := h j hj q hq
    rwa [Kdf.output_getLsbD z hj hq, decide_eq_true hlt, Bool.true_and] at hbit
  · intro h j hj q hq
    rw [Kdf.output_getLsbD z hj hq]
    by_cases hlt : 8 * j + q < klen
    · rw [h j q hq hlt, Bool.and_false]
    · rw [decide_eq_false hlt, Bool.false_and]

/-! ### What the command does -/

/-- KDF of a length within the limit, with source and destination inside DBUF, stores its output (43_kdf.md R209). -/
theorem exec_kdf {s : State} (hlen : s.klen < Kdf.lengthLimit) (hsrc : s.src.toNat + s.len.toNat ≤ s.dbuf.size)
    (hdst : s.dst.toNat + (s.klen + 7) / 8 ≤ s.dbuf.size) :
    let z := s.memRead s.src.toNat s.len.toNat
    exec .kdf s = .next (State.setZF (Kdf.allZero (Kdf.output z s.klen))
      { s.memWrite s.dst.toNat (Kdf.output z s.klen) with ct := Kdf.counter z s.klen }).complete := by
  refine exec_of_bodyOf_ok rfl ?_
  simp [bodyOf, kdfBody, Memory.inRange, Nat.not_le.2 hlen, hsrc, hdst]

end Sys2Proof.Machine

/-! ### The statements -/

namespace Sys2Proof.Proofs

open Sys2Proof Sys2Proof.Machine Sys2Proof.Claims

/-- Settles O56: the bits of the truncated key bytes, which are whole digests. -/
theorem kdfOutputIsTheTruncatedKeyStream : Obligations.KdfOutputIsTheTruncatedKeyStream := fun z klen =>
  ⟨Kdf.output_length z klen, fun _ _ hj hq => Kdf.output_getLsbD z hj hq, Kdf.counter_toNat z klen⟩

/-- Settles O57: the output is stored whole, and the test of its bytes is the test of the klen bits. -/
theorem kdfWritesOutputCounterAndFlag : Obligations.KdfWritesOutputCounterAndFlag := by
  intro s hlen hsrc hdst z
  refine ⟨s.klen_eq, _, exec_kdf hlen hsrc hdst, rfl, fun i hi => ?_, Kdf.counter_toNat z s.klen,
    Kdf.allZero_output_iff z s.klen, fun o ho => ?_, Memory.writeBytes_size _ _ _⟩
  · have hi : i < (Kdf.output z s.klen).length := by rwa [Kdf.output_length]
    exact (Memory.read_writeBytes_inside _ _ _ i hi).trans (List.getD_eq_getElem _ _ hi).symm
  · exact Memory.read_writeBytes_outside _ _ _ _ (by rwa [Kdf.output_length])

/-- Settles O58: the output, CT and ZF of O57 speak of Z and klen alone, and V and B are in its frame. -/
theorem kdfDependsOnZAndKlenOnly : Obligations.KdfDependsOnZAndKlenOnly := by
  intro s s' t t' hklen hlen hz hlimit hsrc hdst hsrc' hdst' ht ht'
  obtain ⟨-, u, hu, hframe, hout, hct, hzf, -⟩ := kdfWritesOutputCounterAndFlag s hlimit hsrc hdst
  obtain ⟨-, u', hu', -, hout', hct', hzf', -⟩ := kdfWritesOutputCounterAndFlag s' (hklen ▸ hlimit) hsrc' hdst'
  obtain rfl : t = u := Host.Outcome.next.inj (ht.symm.trans hu)
  obtain rfl : t' = u' := Host.Outcome.next.inj (ht'.symm.trans hu')
  have hsame : (List.range s.len.toNat).map (fun j => s.dbuf.read (s.src.toNat + j)) =
      (List.range s'.len.toNat).map fun j => s'.dbuf.read (s'.src.toNat + j) := by
    rw [← hlen]
    exact List.map_congr_left fun j hj => hz j (List.mem_range.1 hj)
  rw [← hsame, ← hklen] at hout' hzf'
  rw [← hklen] at hct'
  exact ⟨fun i hi => (hout i hi).trans (hout' i hi).symm, BitVec.eq_of_toNat_eq (hct.trans hct'.symm),
    Bool.eq_iff_iff.2 (hzf.trans hzf'.symm), (congrArg State.v hframe :), (congrArg State.b hframe :)⟩

end Sys2Proof.Proofs
end

section
/-! PROOF. The family of 60_exceptions.md: acceptance, completion, steps, writes while busy and the interrupt level. The
lemmas about commands stand first, then those about steps, host transfers and IRQ, then the statements. -/

namespace Sys2Proof.Machine

open Sys2Proof Sys2Proof.Claims

/-! ### Every command completes -/

/-- A command always has a next state (60_exceptions.md R211). -/
theorem exec_next (i : Instr) (s : State) : ∃ t, exec i s = .next t := by
  rw [exec_eq_runCommand]
  exact runCommand_next _ _ _

/-! ### Every step has a next state -/

/-- The engine's turn under hard reset or while Idle changes nothing (assumption log 1, 8). -/
theorem engineTurn_of_no_turn {s : State} (h : s.inReset = true ∨ s.engine = .idle) : engineTurn s = .next s := by
  obtain h | h := h <;> simp [engineTurn, h]

/-- The engine's turn on a word that decodes is the execution of its command (60_exceptions.md R211). -/
theorem engineTurn_of_decode_ok {s : State} {c : Word} {i : Instr} (hr : s.inReset = false) (hc : s.engine = .busy c)
    (hi : decode c = .ok i) : engineTurn s = exec i s := by
  simp [engineTurn, hr, hc, hi]

/-- The engine's turn always has a next state. -/
theorem engineTurn_next (s : State) : ∃ t, engineTurn s = .next t := by
  cases hr : s.inReset with
  | true => exact ⟨s, engineTurn_of_no_turn (.inl hr)⟩
  | false =>
    cases hc : s.engine with
    | idle => exact ⟨s, engineTurn_of_no_turn (.inr hc)⟩
    | busy c =>
      cases hd : decode c with
      | ok i => rw [engineTurn_of_decode_ok hr hc hd]; exact exec_next i s
      | error e => exact ⟨_, engineTurn_of_decode_error hr hc hd⟩

/-- Every event has a next state: only the engine's turn could stop, and it does not. -/
theorem runEvent_next (e : Event) (s : State) : ∃ t, runEvent e s = .next t := by
  cases e with
  | engineTurn => exact engineTurn_next s
  | hostRead | hostWrite | resetAsserted | resetReleased => exact ⟨_, rfl⟩

/-- With nothing scheduled the engine has the turn (assumption log 1). -/
theorem step_of_events_nil {s : State} (h : s.events = []) : step s = engineTurn s := by
  simp only [step, takeTurn, h]

/-- With events scheduled a step is the next of them. -/
theorem step_of_events_cons {s : State} {e : Event} {rest : List Event} (h : s.events = e :: rest) :
    step s = runEvent e { s with events := rest } := by
  simp only [step, takeTurn, h]

/-! ### Host transfers while busy -/

/-- A transfer at another offset than `o`, where a register stands, does not reach that register. -/
theorem target_ne_reg_of_ne_offset {n : Nat} {off o : BitVec 16} {w : Width} {t : Target} {r : Reg}
    (ht : target n off w = some t) (ho : o.toNat = r.offset) (hne : off ≠ o) : t ≠ .reg r :=
  target_ne_reg ht fun e => hne (BitVec.eq_of_toNat_eq (e.trans ho.symm))

/-- Only CTRL and STATUS take a write while the engine is busy (20_memory.md R70). -/
theorem Target.writableWhileBusy_eq_false {t : Target} (hctrl : t ≠ .reg .ctrl) (hstatus : t ≠ .reg .status) :
    t.writableWhileBusy = false := by
  cases t with
  | reg r =>
    cases r
    case ctrl => exact absurd rfl hctrl
    case status => exact absurd rfl hstatus
    all_goals rfl
  | byte | word => rfl

/-- Only ID, VERSION, CTRL, STATUS and CMD are read truly while the engine is busy (20_memory.md R70). -/
theorem Target.readableWhileBusy_eq_false {t : Target} (hid : t ≠ .reg .id) (hversion : t ≠ .reg .version)
    (hctrl : t ≠ .reg .ctrl) (hstatus : t ≠ .reg .status) (hcmd : t ≠ .reg .cmd) : t.readableWhileBusy = false := by
  cases t with
  | reg r =>
    cases r
    case id => exact absurd rfl hid
    case version => exact absurd rfl hversion
    case ctrl => exact absurd rfl hctrl
    case status => exact absurd rfl hstatus
    case cmd => exact absurd rfl hcmd
    all_goals rfl
  | byte | word => rfl

/-! ### The interrupt level (60_exceptions.md R218) -/

/-- IRQ is the level DONE AND IE. -/
theorem irq_eq_true_iff (s : State) : s.irq = true ↔ s.status.done = true ∧ s.ie = true := by
  rw [State.irq, Bool.and_eq_true]

/-- Every completion, by success or by an error, sets DONE and keeps IE, so IRQ is IE. -/
theorem irq_of_exec {i : Instr} {s t : State} (h : exec i s = .next t) : t.irq = s.ie := by
  obtain ⟨-, u, hu, rfl⟩ | ⟨c, -, rfl⟩ := exec_cases h
  · simp [State.irq, (bodyFrame_of_ok hu).ie]
  · simp [State.irq]

/-- A write to CTRL without SRST makes IE its bit 0 and keeps DONE. -/
theorem irq_writeCtrl {s : State} {v : Word} (hv : v.getLsbD 1 = false) :
    (s.writeCtrl v).irq = (s.status.done && v.getLsbD 0) := by
  simp only [State.writeCtrl, hv, Bool.false_eq_true, if_false]
  rfl

/-- A soft reset clears IRQ. -/
theorem irq_writeCtrl_srst {s : State} {v : Word} (hv : v.getLsbD 1 = true) : (s.writeCtrl v).irq = false := by
  simp only [State.writeCtrl, hv, if_true]
  rfl

/-- A write to STATUS lowers IRQ where its DONE bit is 1, and keeps it otherwise. -/
theorem irq_acknowledge (s : State) (v : Word) :
    (s.acknowledge v).irq = if v.getLsbD 1 then false else s.irq := by
  simp only [State.irq, State.acknowledge, and_not_eq_ite]
  cases v.getLsbD 1 <;> rfl

/-- An acceptance clears DONE and so IRQ. -/
theorem irq_accept (s : State) (c : Word) : (s.accept c).irq = false := rfl

/-- A hard reset clears IRQ. -/
theorem irq_hardReset (s : State) : s.hardReset.irq = false := rfl

end Sys2Proof.Machine

/-! ### The statements -/

namespace Sys2Proof.Proofs

open Sys2Proof Sys2Proof.Machine Sys2Proof.Claims

/-- Settles O9: a body that succeeds leaves ERR, ERRCODE, OVR and BERR alone, and an error is raised on the state the
command found. -/
theorem commandSucceedsOrFailsPrecisely : Obligations.CommandSucceedsOrFailsPrecisely := by
  intro i s
  obtain ⟨t, ht⟩ := exec_next i s
  refine ⟨t, ht, ?_⟩
  obtain ⟨-, u, hu, rfl⟩ | ⟨c, -, rfl⟩ := exec_cases ht
  · have hb := bodyFrame_of_ok hu
    exact .inl ⟨rfl, rfl, hb.err, hb.errcode, hb.ovr, hb.berr⟩
  · exact .inr ⟨c, rfl⟩

/-- Settles O11: the engine's turn and every event have a next state. -/
theorem everyStepHasANextState : Obligations.EveryStepHasANextState := by
  intro s
  unfold State.stepSafe
  cases he : s.events with
  | nil => rw [step_of_events_nil he]; exact engineTurn_next s
  | cons e rest => rw [step_of_events_cons he]; exact runEvent_next e _

/-- Settles O28: the access reaches something that takes no write, or is not read truly, while busy. -/
theorem busyEngineDropsWrites : Obligations.BusyEngineDropsWrites := by
  intro s c off w v rest hc hr hl
  obtain ⟨t, ht⟩ := exists_target_of_legalAccess hl
  constructor
  · intro hctrl hstatus
    have hb : t.writableWhileBusy = false := Target.writableWhileBusy_eq_false
      (target_ne_reg_of_ne_offset ht rfl hctrl) (target_ne_reg_of_ne_offset ht rfl hstatus)
    have hw : hostWrite off w v { s with events := rest } = State.setOvr { s with events := rest } :=
      hostWrite_dropped v hr ht hc hb
    rw [step_hostWrite, hw]
    rfl
  · intro hid hversion hctrl hstatus hcmd
    have hb : t.readableWhileBusy = false := Target.readableWhileBusy_eq_false
      (target_ne_reg_of_ne_offset ht rfl hid) (target_ne_reg_of_ne_offset ht rfl hversion)
      (target_ne_reg_of_ne_offset ht rfl hctrl) (target_ne_reg_of_ne_offset ht rfl hstatus)
      (target_ne_reg_of_ne_offset ht rfl hcmd)
    have hread : hostRead off w { s with events := rest } = freeRead w { s with events := rest } :=
      hostRead_free hr ht hc hb
    refine ⟨w.take (Config.freeWord s.draws), ?_⟩
    rw [step_hostRead, State.busRead, hread]
    rfl

/-- Settles O29: the level, and what a completion, each of the three writes and the two resets make of it. -/
theorem interruptIsDoneAndEnabled : Obligations.InterruptIsDoneAndEnabled := by
  refine ⟨irq_eq_true_iff, fun i s t => irq_of_exec, fun s v hr => ?_, fun s rest hr => ?_⟩
  · have hctrl : hostWrite 0x008 .w32 v s = s.writeCtrl v := hostWrite_reg .ctrl v rfl hr (.inr rfl)
    have hstatus : hostWrite 0x00C .w32 v s = s.acknowledge v := hostWrite_reg .status v rfl hr (.inr rfl)
    have hcmd (hi : s.engine = .idle) : hostWrite 0x010 .w32 v s = s.accept v := hostWrite_reg .cmd v rfl hr (.inl hi)
    rw [hctrl, hstatus, irq_acknowledge]
    exact ⟨irq_writeCtrl, irq_writeCtrl_srst, fun hv => by rw [if_pos hv], fun hv => by rw [hv]; rfl,
      fun hi => by rw [hcmd hi, irq_accept]⟩
  · have hstep : step { s with events := .resetReleased :: rest } =
        .next (State.hardReset { s with events := rest }) := congrArg Host.Outcome.next (if_pos hr)
    exact ⟨_, hstep, irq_hardReset _⟩

/-- Settles O6: the engine has the turn when it is scheduled and when nothing is, and its word decodes. -/
theorem engineTurnRunsTheDecodedCommand : Obligations.EngineTurnRunsTheDecodedCommand := by
  intro s c i rest hc hr hi
  rw [step_of_events_cons rfl, step_of_events_nil rfl, runEvent]
  exact ⟨engineTurn_of_decode_ok hr hc hi, engineTurn_of_decode_ok hr hc hi⟩

/-- Settles O8: an Idle engine takes the write to CMD as an acceptance. -/
theorem everyCommandWordIsAccepted : Obligations.EveryCommandWordIsAccepted := by
  intro s c rest hi hr
  have hw : hostWrite 0x010 .w32 c { s with events := rest } = State.accept c { s with events := rest } :=
    hostWrite_reg .cmd c rfl hr (.inl hi)
  exact ⟨_, (step_hostWrite s _ _ c rest).trans (congrArg Host.Outcome.next hw), rfl, rfl⟩

end Sys2Proof.Proofs
end

section
/-! PROOF. The family of 70_reset_and_hazards.md: the soft reset by CTRL, and the hard reset with the accesses under it.
The lemmas about the range an abandoned command was due to write stand first, then those about the two resets, then the
statements. -/

namespace Sys2Proof.Machine

open Sys2Proof Sys2Proof.Claims

/-! ### The range an abandoned command was due to write (70_reset_and_hazards.md R242) -/

/-- A due range belongs to the command that the word of a busy engine stands for. -/
theorem exists_command_of_dueRange {s : State} {r : Nat × Nat} (h : s.dueRange = some r) :
    ∃ c i, s.engine = .busy c ∧ decode c = .ok i ∧ dueRangeOf s i = some r := by
  unfold State.dueRange at h
  split at h
  case h_1 => cases h
  case h_2 c hc =>
    split at h
    case h_1 i hi => exact ⟨c, i, hc, hi, h⟩
    case h_2 => cases h

/-- An Idle engine is due to write nothing. -/
theorem dueRange_of_idle {s : State} (h : s.engine = .idle) : s.dueRange = none := by
  simp only [State.dueRange, h]

/-- HASH and KDF have a due range only where their source range is inside DBUF (20_memory.md R66). -/
theorem source_inside_of_dueRangeOf {s : State} {i : Instr} {r : Nat × Nat} (h : dueRangeOf s i = some r)
    (hi : i = .hash ∨ i = .kdf) : s.src.toNat + s.len.toNat ≤ s.dbuf.size := by
  obtain rfl | rfl := hi
  all_goals
    simp only [dueRangeOf, Memory.inRange, Option.ite_none_right_eq_some, Bool.and_eq_true, decide_eq_true_eq] at h
    exact h.1.1

/-- The word of a PSTORE of a legal register is `0x2B` with the register number in RA (30_encoding.md R94, R95). -/
theorem encode_pstore_toNat {a : Nibble} (h : (Instr.pstore a).wf = true) :
    ∃ k < 4, (encode (.pstore a)).toNat = 0x2B + k * 2 ^ 12 :=
  ⟨a.toNat, by simpa [Instr.wf, isP] using h, by simp [encode, packWord_toNat]⟩

/-- A byte of the due range of the command a word stands for is one the word was due to write. -/
theorem dueByte_of_dueRangeOf {s : State} {c : Word} {i : Instr} {o n a : Nat} (hd : decode c = .ok i)
    (h : dueRangeOf s i = some (o, n)) (hlo : o ≤ a) (hhi : a < o + n) : DueByte s c a := by
  obtain ⟨hwf, rfl⟩ := Proofs.decodedWordEncodesBack c i hd
  have hin := dueRangeOf_inside h
  have hsrc := source_inside_of_dueRangeOf h
  obtain ⟨rfl, ⟨⟨p, rfl⟩, rfl⟩ | ⟨rfl, rfl⟩ | ⟨rfl, rfl⟩⟩ := dueRangeOf_cases h
  · exact .inl ⟨encode_pstore_toNat hwf, hin, hlo, hhi⟩
  · exact .inr (.inl ⟨rfl, hsrc (.inl rfl), hin, hlo, hhi⟩)
  · exact .inr (.inr ⟨rfl, hsrc (.inr rfl), hin, hlo, hhi⟩)

/-! ### The soft reset (70_reset_and_hazards.md R241, R242) -/

/-- The registers at reset are those of 10_state.md R44. -/
theorem resetRegisters_eq_withResetValues (s : State) : s.resetRegisters = withResetValues s := rfl

/-- A write to CTRL with SRST, busy or not, is a soft reset (10_state.md R24, 20_memory.md R70). -/
theorem hostWrite_ctrl_srst {s : State} {v : Word} (hr : s.inReset = false) (hv : v.getLsbD 1 = true) :
    hostWrite 0x008 .w32 v s = s.softReset :=
  (hostWrite_reg .ctrl v rfl hr (.inr rfl)).trans (if_pos hv)

/-- STATUS reads 0 after a soft reset, as after a hard reset (10_state.md R44). -/
theorem statusWord_softReset (s : State) : s.softReset.statusWord = 0 :=
  calc s.softReset.statusWord = State.reset.statusWord := rfl
    _ = 0 := by decide

/-- A soft reset with nothing running keeps DBUF. -/
theorem softReset_dbuf_of_idle {s : State} (h : s.engine = .idle) : s.softReset.dbuf = s.dbuf := by
  rw [State.softReset_dbuf, dueRange_of_idle h, Memory.scramble]

/-- A soft reset keeps every byte the running word was not due to write. -/
theorem softReset_read_of_not_dueByte {s : State} {c : Word} {a : Nat} (hc : s.engine = .busy c)
    (h : ¬ DueByte s c a) : s.softReset.dbuf.read a = s.dbuf.read a := by
  rw [State.softReset_dbuf]
  refine Memory.read_scramble_outside _ _ _ _ fun o n hr => ?_
  obtain ⟨c', i, hc', hd, hi⟩ := exists_command_of_dueRange hr
  obtain rfl : c' = c := Engine.busy.inj (hc'.symm.trans hc)
  by_contra hin
  exact h (dueByte_of_dueRangeOf hd hi (by omega) (by omega))

/-! ### The hard reset (70_reset_and_hazards.md R240) -/

/-- A host write under hard reset has no effect. -/
theorem hostWrite_of_inReset {s : State} (off : BitVec 16) (w : Width) (v : Word) (hr : s.inReset = true) :
    hostWrite off w v s = s := if_pos hr

/-- A host read under hard reset returns a free value. -/
theorem hostRead_of_inReset {s : State} (off : BitVec 16) (w : Width) (hr : s.inReset = true) :
    hostRead off w s = freeRead w s := if_pos hr

/-- The release of an asserted reset input is a hard reset. -/
theorem step_resetReleased {s : State} (rest : List Event) (hr : s.inReset = true) :
    step { s with events := .resetReleased :: rest } = .next (State.hardReset { s with events := rest }) :=
  congrArg Host.Outcome.next (if_pos hr)

end Sys2Proof.Machine

/-! ### The statements -/

namespace Sys2Proof.Proofs

open Sys2Proof Sys2Proof.Machine Sys2Proof.Claims

/-- Settles O31: CTRL takes the write while busy too, and SRST makes it a soft reset. -/
theorem softResetRestoresEveryRegister : Obligations.SoftResetRestoresEveryRegister := by
  intro s v rest hr hv
  have hw : hostWrite 0x008 .w32 v { s with events := rest } = State.softReset { s with events := rest } :=
    hostWrite_ctrl_srst hr hv
  refine ⟨_, (step_hostWrite s _ _ v rest).trans (congrArg Host.Outcome.next hw), ?_, by simp,
    statusWord_softReset _, fun hi => softReset_dbuf_of_idle hi,
    fun c o hc ho => softReset_read_of_not_dueByte hc ho⟩
  rw [State.softReset, resetRegisters_eq_withResetValues]
  rfl

/-- Settles O32: under hard reset a write does nothing and a read draws a free value; the release is a hard reset. -/
theorem hardResetRestoresEveryRegister : Obligations.HardResetRestoresEveryRegister := by
  intro s off w v rest hr
  have hwrite : hostWrite off w v { s with events := rest } = { s with events := rest } :=
    hostWrite_of_inReset off w v hr
  have hread : hostRead off w { s with events := rest } = freeRead w { s with events := rest } :=
    hostRead_of_inReset off w hr
  refine ⟨by rw [step_hostWrite, hwrite], ⟨w.take (Config.freeWord s.draws), s.draws + 1, ?_⟩,
    _, step_resetReleased rest hr, ?_, rfl⟩
  · rw [step_hostRead, State.busRead, hread]
    rfl
  · rw [State.hardReset, resetRegisters_eq_withResetValues]
    rfl

end Sys2Proof.Proofs
end
